-- ==== Sys2Proof/Word.lean ====
section
/-! DEFINITION. The widths of the engine's values (00_scope.md R7). -/

namespace Sys2Proof

/-- A register, a `pc`, an address while it is computed: 64 bits (R7, R20, R25). -/
abbrev Word := BitVec 64

/-- One byte of memory (R7). -/
abbrev Byte := BitVec 8

/-- One instruction word (R7, R80). -/
abbrev IWord := BitVec 32

end Sys2Proof
end

