-- ==== Sys2Proof/Config.lean ====
section
/-! DEFINITION. The parameters that the platform fixes (00_scope.md R9) and the values this model gives them in
`State.reset`. The parameters are plain data that State carries and no step changes (log 1), so a statement about
every state is a statement about every platform. -/

namespace Sys2Proof

/-- One region of the loaded image (R53): base address, size, and its initial bytes from the base upwards.
Where fewer bytes than the size are given, the host loads zeros in the rest (log 5). -/
structure Region where
  base : Word
  size : Nat
  init : List Byte
  deriving DecidableEq, Repr

/-- The parameters of R9 that are not the instruction source: `STOP_SENTINEL`, `STACK_BASE`, `STACK_SIZE` and `IMAGE`. -/
structure Platform where
  stopSentinel : Word
  stackBase : Word
  stackSize : Nat
  image : List Region
  deriving DecidableEq, Repr

namespace Config

/-- DESIGN CHOICE (log 2, unsafe for claims about `State.reset`). The example platform of 70_reset_and_hazards.md R264,
whose numbers the spec calls the examples' own: sentinel 0, stack 0x7000 to 0x7FFF, no image. -/
def resetPlatform : Platform :=
  { stopSentinel := 0x0#64, stackBase := 0x7000#64, stackSize := 0x1000, image := [] }

/-- DESIGN CHOICE (log 3). The entry address of the spec's examples (R264). -/
def resetTarget : Word := 0x1000#64

/-- DESIGN CHOICE (log 3). The value of each of `a0` to `a3` in `State.reset`; R262 calls 0 conventional. -/
def resetArgument : Word := 0x0#64

end Config

end Sys2Proof
end

