-- ==== Sys2Proof/Syntax.lean ====
section
/-! DEFINITION. The instructions: one constructor for each row of spec/opcode_table.json (30_encoding.md R100), and the
field that an unsupported word is reported by (60_exceptions.md R221). -/

namespace Sys2Proof

/-- The number of a general register, 0 to 31 (10_state.md R20). -/
abbrev RegIdx := Fin 32

/-- The 28 rows of R100. Immediates are kept as the encoded bits; the unit that uses one extends it. -/
inductive Instr where
  | add (rd rs1 rs2 : RegIdx)
  | sub (rd rs1 rs2 : RegIdx)
  | mul (rd rs1 rs2 : RegIdx)
  | and (rd rs1 rs2 : RegIdx)
  | sll (rd rs1 rs2 : RegIdx)
  | srl (rd rs1 rs2 : RegIdx)
  | sra (rd rs1 rs2 : RegIdx)
  | addRw (rd rs1 rs2 : RegIdx)
  | subRw (rd rs1 rs2 : RegIdx)
  | mulRw (rd rs1 rs2 : RegIdx)
  | andRw (rd rs1 rs2 : RegIdx)
  | sllw (rd rs1 rs2 : RegIdx)
  | srlRw (rd rs1 rs2 : RegIdx)
  | sraw (rd rs1 rs2 : RegIdx)
  | addi (rd rs1 : RegIdx) (imm : BitVec 12)
  | srli (rd rs1 : RegIdx) (shamt : BitVec 5)
  | lb (rd rs1 : RegIdx) (imm : BitVec 12)
  | lw (rd rs1 : RegIdx) (imm : BitVec 12)
  | ld (rd rs1 : RegIdx) (imm : BitVec 12)
  | sb (rs2 rs1 : RegIdx) (imm : BitVec 12)
  | sw (rs2 rs1 : RegIdx) (imm : BitVec 12)
  | sd (rs2 rs1 : RegIdx) (imm : BitVec 12)
  | beq (rs1 rs2 : RegIdx) (off : BitVec 12)
  | bne (rs1 rs2 : RegIdx) (off : BitVec 12)
  | blt (rs1 rs2 : RegIdx) (off : BitVec 12)
  | bge (rs1 rs2 : RegIdx) (off : BitVec 12)
  | jal (rd : RegIdx) (off : BitVec 21)
  | jalr (rd rs1 : RegIdx) (imm : BitVec 12)
  deriving DecidableEq, Repr

/-- The offending field of an unsupported word and its raw value (R221). -/
inductive UnsupportedField where
  | opcode (raw : BitVec 7)
  | funct3 (raw : BitVec 3)
  | funct7 (raw : BitVec 7)
  | functPair (raw3 : BitVec 3) (raw7 : BitVec 7)
  deriving DecidableEq, Repr

/-- Why a byte string holds no instruction: it is shorter than one word, or its word selects no row. -/
inductive DecodeReject where
  | tooShort
  | unsupported (field : UnsupportedField)
  deriving DecidableEq, Repr

/-- The mnemonic of the instruction's row, as spec/opcode_table.json spells it. -/
def Instr.mnemonic : Instr → String
  | .add _ _ _ => "ADD"
  | .sub _ _ _ => "SUB"
  | .mul _ _ _ => "MUL"
  | .and _ _ _ => "AND"
  | .sll _ _ _ => "SLL"
  | .srl _ _ _ => "SRL"
  | .sra _ _ _ => "SRA"
  | .addRw _ _ _ => "ADD.RW"
  | .subRw _ _ _ => "SUB.RW"
  | .mulRw _ _ _ => "MUL.RW"
  | .andRw _ _ _ => "AND.RW"
  | .sllw _ _ _ => "SLLW"
  | .srlRw _ _ _ => "SRL.RW"
  | .sraw _ _ _ => "SRAW"
  | .addi _ _ _ => "ADDI"
  | .srli _ _ _ => "SRLI"
  | .lb _ _ _ => "LB"
  | .lw _ _ _ => "LW"
  | .ld _ _ _ => "LD"
  | .sb _ _ _ => "SB"
  | .sw _ _ _ => "SW"
  | .sd _ _ _ => "SD"
  | .beq _ _ _ => "BEQ"
  | .bne _ _ _ => "BNE"
  | .blt _ _ _ => "BLT"
  | .bge _ _ _ => "BGE"
  | .jal _ _ => "JAL"
  | .jalr _ _ _ => "JALR"

end Sys2Proof
end

