-- ==== Sys2Proof/WellFormed.lean ====
section
/-! DEFINITION. Well-formed instructions and well-formed platforms. -/

namespace Sys2Proof

/-- Every field but one has exactly the values its type has. The JAL offset is even: 21 bits of which bit 0 is 0
(30_encoding.md R93). -/
def Instr.wellFormed : Instr → Bool
  | .jal _ off => off.getLsbD 0 = false
  | .add _ _ _ | .sub _ _ _ | .mul _ _ _ | .and _ _ _ | .sll _ _ _ | .srl _ _ _ | .sra _ _ _
  | .addRw _ _ _ | .subRw _ _ _ | .mulRw _ _ _ | .andRw _ _ _ | .sllw _ _ _ | .srlRw _ _ _ | .sraw _ _ _
  | .addi _ _ _ | .srli _ _ _ | .lb _ _ _ | .lw _ _ _ | .ld _ _ _ | .sb _ _ _ | .sw _ _ _ | .sd _ _ _
  | .beq _ _ _ | .bne _ _ _ | .blt _ _ _ | .bge _ _ _ | .jalr _ _ _ => true

/-- Two stretches of addresses have no address in common. DESIGN CHOICE (log 20, safe): R9 and 20_memory.md R53 neither forbid
an image region of size 0 nor say whether it overlaps; here an empty stretch overlaps nothing, wherever its base lies. -/
def disjointSpans (base size base' size' : Nat) : Bool :=
  decide (size = 0) || decide (size' = 0) || decide (base + size ≤ base') || decide (base' + size' ≤ base)

/-- R9: the region does not pass 2^64, and gives at most as many initial bytes as it has. -/
def Region.wellFormed (r : Region) : Bool :=
  decide (r.base.toNat + r.size ≤ 2 ^ 64) && decide (r.init.length ≤ r.size)

/-- R9: no region overlaps a later one of the list. -/
def regionsDisjoint : List Region → Bool
  | [] => true
  | r :: rest =>
    rest.all (fun q => disjointSpans r.base.toNat r.size q.base.toNat q.size) && regionsDisjoint rest

/-- The constraints of R9 on the parameters (the one on `STOP_SENTINEL` is about the instruction source: Safety.lean). -/
def Platform.wellFormed (p : Platform) : Bool :=
  decide (0 < p.stackSize) && decide (p.stackBase.toNat + p.stackSize < 2 ^ 64)
    && p.image.all Region.wellFormed
    && p.image.all (fun r => disjointSpans p.stackBase.toNat p.stackSize r.base.toNat r.size)
    && regionsDisjoint p.image

end Sys2Proof
end

