-- ==== Sys2Proof/Decode.lean ====
section
/-! DEFINITION. The decoder (30_encoding.md R80 to R105, 40_dispatch.md R124), total on every word and every byte string, and
after it the encoder, both written from the formats R82 to R86 and the map R100. The bit-field and byte-order helpers of
the whole model stand here. -/

namespace Sys2Proof

/-! ### Bit fields and bytes -/

/-- `extract_unsigned(word, offset, width)`: the `width` bits from bit `offset` up (00_scope.md R12). -/
def extractUnsigned (w : IWord) (offset width : Nat) : BitVec width := w.extractLsb' offset width

/-- `extract_bit(word, offset)` (00_scope.md R13). -/
def extractBit (w : IWord) (offset : Nat) : Bool := w.getLsbD offset

/-- The n bytes `f 0` to `f (n-1)` as one 8n-bit value, little-endian: `f k` is bits `8k+7 : 8k`
(20_memory.md R54 for instruction words, R55 for data). The one place where the byte order is decided. -/
def leJoin : (n : Nat) → (Nat → Byte) → BitVec (8 * n)
  | 0, _ => 0#0
  | n + 1, f => ((leJoin n (fun k => f (k + 1))) ++ f 0 : BitVec (8 * n + 8))

/-- Byte k of a value, counted from the least significant (R55). -/
def leByte {m : Nat} (v : BitVec m) (k : Nat) : Byte := v.extractLsb' (8 * k) 8

/-- The four bytes of a word in the order in which they are stored, lowest address first (R54). -/
def wordBytes (w : IWord) : List Byte := [leByte w 0, leByte w 1, leByte w 2, leByte w 3]

/-! ### The eight opcode values (00_scope.md R10; the spec's decision D1, log 10) -/

def opcR : BitVec 7 := 0b0110011#7
def opcRw : BitVec 7 := 0b0111011#7
def opcIArith : BitVec 7 := 0b0010011#7
def opcLoad : BitVec 7 := 0b0000011#7
def opcStore : BitVec 7 := 0b0100011#7
def opcBranch : BitVec 7 := 0b1100011#7
def opcJal : BitVec 7 := 0b1101111#7
def opcJalr : BitVec 7 := 0b1100111#7

/-! ### The fields (R81) -/

def opcodeOf (w : IWord) : BitVec 7 := extractUnsigned w 0 7
def rdOf (w : IWord) : RegIdx := (extractUnsigned w 7 5).toFin
def funct3Of (w : IWord) : BitVec 3 := extractUnsigned w 12 3
def rs1Of (w : IWord) : RegIdx := (extractUnsigned w 15 5).toFin
def rs2Of (w : IWord) : RegIdx := (extractUnsigned w 20 5).toFin
def funct7Of (w : IWord) : BitVec 7 := extractUnsigned w 25 7

/-- I immediate: `w[31:20]` (R90). -/
def immIOf (w : IWord) : BitVec 12 := extractUnsigned w 20 12

/-- S immediate, and the B offset, which has the same layout: `w[31:25] ++ w[11:7]` (R91, R92). -/
def immSOf (w : IWord) : BitVec 12 := (extractUnsigned w 25 7 ++ extractUnsigned w 7 5 : BitVec 12)

/-- Immediate shift amount: `w[24:20]` (R94). -/
def shamtOf (w : IWord) : BitVec 5 := extractUnsigned w 20 5

/-- J offset: `w[31] ++ w[19:12] ++ w[20] ++ w[30:21] ++ 0b0` (R93). -/
def offJOf (w : IWord) : BitVec 21 :=
  (extractUnsigned w 31 1 ++ extractUnsigned w 12 8 ++ extractUnsigned w 20 1 ++ extractUnsigned w 21 10 ++ 0#1 :
    BitVec 21)

/-! ### The units' selections (R101, R103, R221) -/

/-- R-type unit (41_r_type.md R140, R157): the pair (funct3, funct7) selects; bit 3 of the word is the word-variant flag. -/
def decodeR (w : IWord) : Except UnsupportedField Instr :=
  let wide := !extractBit w 3
  let rd := rdOf w
  let rs1 := rs1Of w
  let rs2 := rs2Of w
  let f3 := funct3Of w
  let f7 := funct7Of w
  if f3 = 0b000#3 ∧ f7 = 0b0000000#7 then .ok (if wide then .add rd rs1 rs2 else .addRw rd rs1 rs2)
  else if f3 = 0b000#3 ∧ f7 = 0b0100000#7 then .ok (if wide then .sub rd rs1 rs2 else .subRw rd rs1 rs2)
  else if f3 = 0b000#3 ∧ f7 = 0b0000001#7 then .ok (if wide then .mul rd rs1 rs2 else .mulRw rd rs1 rs2)
  else if f3 = 0b111#3 ∧ f7 = 0b0000000#7 then .ok (if wide then .and rd rs1 rs2 else .andRw rd rs1 rs2)
  else if f3 = 0b001#3 ∧ f7 = 0b0000000#7 then .ok (if wide then .sll rd rs1 rs2 else .sllw rd rs1 rs2)
  else if f3 = 0b101#3 ∧ f7 = 0b0000000#7 then .ok (if wide then .srl rd rs1 rs2 else .srlRw rd rs1 rs2)
  else if f3 = 0b101#3 ∧ f7 = 0b0100000#7 then .ok (if wide then .sra rd rs1 rs2 else .sraw rd rs1 rs2)
  else .error (.functPair f3 f7)

/-- I-arithmetic unit (42_i_arith.md R170, R173). -/
def decodeIArith (w : IWord) : Except UnsupportedField Instr :=
  let f3 := funct3Of w
  if f3 = 0b000#3 then .ok (.addi (rdOf w) (rs1Of w) (immIOf w))
  else if f3 = 0b101#3 then
    if funct7Of w = 0b0000000#7 then .ok (.srli (rdOf w) (rs1Of w) (shamtOf w))
    else .error (.funct7 (funct7Of w))
  else .error (.funct3 f3)

/-- Load unit (43_load.md R180, R184). -/
def decodeLoad (w : IWord) : Except UnsupportedField Instr :=
  let f3 := funct3Of w
  if f3 = 0b000#3 then .ok (.lb (rdOf w) (rs1Of w) (immIOf w))
  else if f3 = 0b010#3 then .ok (.lw (rdOf w) (rs1Of w) (immIOf w))
  else if f3 = 0b011#3 then .ok (.ld (rdOf w) (rs1Of w) (immIOf w))
  else .error (.funct3 f3)

/-- Store unit (44_store.md R190, R194). -/
def decodeStore (w : IWord) : Except UnsupportedField Instr :=
  let f3 := funct3Of w
  if f3 = 0b000#3 then .ok (.sb (rs2Of w) (rs1Of w) (immSOf w))
  else if f3 = 0b010#3 then .ok (.sw (rs2Of w) (rs1Of w) (immSOf w))
  else if f3 = 0b011#3 then .ok (.sd (rs2Of w) (rs1Of w) (immSOf w))
  else .error (.funct3 f3)

/-- Branch unit (45_branch.md R200, R205). -/
def decodeBranch (w : IWord) : Except UnsupportedField Instr :=
  let f3 := funct3Of w
  if f3 = 0b000#3 then .ok (.beq (rs1Of w) (rs2Of w) (immSOf w))
  else if f3 = 0b001#3 then .ok (.bne (rs1Of w) (rs2Of w) (immSOf w))
  else if f3 = 0b100#3 then .ok (.blt (rs1Of w) (rs2Of w) (immSOf w))
  else if f3 = 0b101#3 then .ok (.bge (rs1Of w) (rs2Of w) (immSOf w))
  else .error (.funct3 f3)

/-- The decoder: the opcode routes to a unit (R101, R124), which checks its funct fields. Any other opcode is unsupported
(40_dispatch.md R125). The JALR unit looks at no funct3 (R105; log 13). -/
def decode (w : IWord) : Except UnsupportedField Instr :=
  let opc := opcodeOf w
  if opc = opcR then decodeR w
  else if opc = opcRw then decodeR w
  else if opc = opcIArith then decodeIArith w
  else if opc = opcLoad then decodeLoad w
  else if opc = opcStore then decodeStore w
  else if opc = opcBranch then decodeBranch w
  else if opc = opcJal then .ok (.jal (rdOf w) (offJOf w))
  else if opc = opcJalr then .ok (.jalr (rdOf w) (rs1Of w) (immIOf w))
  else .error (.opcode opc)

/-- The decoder over bytes in storage order: an instruction is four bytes (R80), and the rest is handed back. -/
def decodeBytes : List Byte → Except DecodeReject (Instr × List Byte)
  | b0 :: b1 :: b2 :: b3 :: rest =>
    match decode (leJoin 4 (fun k => [b0, b1, b2, b3].getD k 0#8)) with
    | .ok i => .ok (i, rest)
    | .error f => .error (.unsupported f)
  | _ => .error .tooShort

/-- The table's word of `nbits` bits as the decoder reads it from storage: bits above `nbits` are 0, the bytes lie lowest
first (R54). -/
def decodeTableWord (nbits w : Nat) : Option Instr :=
  match decodeBytes (wordBytes (BitVec.ofNat 32 (w % 2 ^ nbits))) with
  | .ok (i, _) => some i
  | .error _ => none

/-! ### The encoder -/

/-- R format (R82). -/
def encodeR (f7 : BitVec 7) (rs2 rs1 : RegIdx) (f3 : BitVec 3) (rd : RegIdx) (opc : BitVec 7) : IWord :=
  (f7 ++ (BitVec.ofFin rs2 : BitVec 5) ++ (BitVec.ofFin rs1 : BitVec 5) ++ f3 ++ (BitVec.ofFin rd : BitVec 5) ++ opc :
    BitVec 32)

/-- I format (R83). -/
def encodeI (imm : BitVec 12) (rs1 : RegIdx) (f3 : BitVec 3) (rd : RegIdx) (opc : BitVec 7) : IWord :=
  (imm ++ (BitVec.ofFin rs1 : BitVec 5) ++ f3 ++ (BitVec.ofFin rd : BitVec 5) ++ opc : BitVec 32)

/-- S format (R84), and the B format, which is laid out as the S format (R85). -/
def encodeS (imm : BitVec 12) (rs2 rs1 : RegIdx) (f3 : BitVec 3) (opc : BitVec 7) : IWord :=
  (imm.extractLsb' 5 7 ++ (BitVec.ofFin rs2 : BitVec 5) ++ (BitVec.ofFin rs1 : BitVec 5) ++ f3
    ++ imm.extractLsb' 0 5 ++ opc : BitVec 32)

/-- J format (R86): bit 0 of the offset is not encoded. -/
def encodeJ (off : BitVec 21) (rd : RegIdx) (opc : BitVec 7) : IWord :=
  (off.extractLsb' 20 1 ++ off.extractLsb' 1 10 ++ off.extractLsb' 11 1 ++ off.extractLsb' 12 8
    ++ (BitVec.ofFin rd : BitVec 5) ++ opc : BitVec 32)

/-- The word of a well-formed instruction (R100). For JALR, whose funct3 is not examined, the word with funct3 = 000 that
R105 says an assembler emits. -/
def encode : Instr → IWord
  | .add rd rs1 rs2 => encodeR 0b0000000#7 rs2 rs1 0b000#3 rd opcR
  | .sub rd rs1 rs2 => encodeR 0b0100000#7 rs2 rs1 0b000#3 rd opcR
  | .mul rd rs1 rs2 => encodeR 0b0000001#7 rs2 rs1 0b000#3 rd opcR
  | .and rd rs1 rs2 => encodeR 0b0000000#7 rs2 rs1 0b111#3 rd opcR
  | .sll rd rs1 rs2 => encodeR 0b0000000#7 rs2 rs1 0b001#3 rd opcR
  | .srl rd rs1 rs2 => encodeR 0b0000000#7 rs2 rs1 0b101#3 rd opcR
  | .sra rd rs1 rs2 => encodeR 0b0100000#7 rs2 rs1 0b101#3 rd opcR
  | .addRw rd rs1 rs2 => encodeR 0b0000000#7 rs2 rs1 0b000#3 rd opcRw
  | .subRw rd rs1 rs2 => encodeR 0b0100000#7 rs2 rs1 0b000#3 rd opcRw
  | .mulRw rd rs1 rs2 => encodeR 0b0000001#7 rs2 rs1 0b000#3 rd opcRw
  | .andRw rd rs1 rs2 => encodeR 0b0000000#7 rs2 rs1 0b111#3 rd opcRw
  | .sllw rd rs1 rs2 => encodeR 0b0000000#7 rs2 rs1 0b001#3 rd opcRw
  | .srlRw rd rs1 rs2 => encodeR 0b0000000#7 rs2 rs1 0b101#3 rd opcRw
  | .sraw rd rs1 rs2 => encodeR 0b0100000#7 rs2 rs1 0b101#3 rd opcRw
  | .addi rd rs1 imm => encodeI imm rs1 0b000#3 rd opcIArith
  | .srli rd rs1 shamt => encodeI (0b0000000#7 ++ shamt : BitVec 12) rs1 0b101#3 rd opcIArith
  | .lb rd rs1 imm => encodeI imm rs1 0b000#3 rd opcLoad
  | .lw rd rs1 imm => encodeI imm rs1 0b010#3 rd opcLoad
  | .ld rd rs1 imm => encodeI imm rs1 0b011#3 rd opcLoad
  | .sb rs2 rs1 imm => encodeS imm rs2 rs1 0b000#3 opcStore
  | .sw rs2 rs1 imm => encodeS imm rs2 rs1 0b010#3 opcStore
  | .sd rs2 rs1 imm => encodeS imm rs2 rs1 0b011#3 opcStore
  | .beq rs1 rs2 off => encodeS off rs2 rs1 0b000#3 opcBranch
  | .bne rs1 rs2 off => encodeS off rs2 rs1 0b001#3 opcBranch
  | .blt rs1 rs2 off => encodeS off rs2 rs1 0b100#3 opcBranch
  | .bge rs1 rs2 off => encodeS off rs2 rs1 0b101#3 opcBranch
  | .jal rd off => encodeJ off rd opcJal
  | .jalr rd rs1 imm => encodeI imm rs1 0b000#3 rd opcJalr

/-! ### The opcode map as a table (R100) -/

/-- Whether a word selects the row with this match and mask (R100). -/
def selects (w mask pattern : IWord) : Bool := w &&& mask = pattern

/-- The rows of R100 under `OPC_R`: mnemonic, match, mask. -/
def rowsR : List (String × IWord × IWord) :=
  [("ADD", 0x00000033#32, 0xFE00707F#32), ("SUB", 0x40000033#32, 0xFE00707F#32),
   ("MUL", 0x02000033#32, 0xFE00707F#32), ("AND", 0x00007033#32, 0xFE00707F#32),
   ("SLL", 0x00001033#32, 0xFE00707F#32), ("SRL", 0x00005033#32, 0xFE00707F#32),
   ("SRA", 0x40005033#32, 0xFE00707F#32)]

/-- The rows of R100 under `OPC_RW`. -/
def rowsRw : List (String × IWord × IWord) :=
  [("ADD.RW", 0x0000003B#32, 0xFE00707F#32), ("SUB.RW", 0x4000003B#32, 0xFE00707F#32),
   ("MUL.RW", 0x0200003B#32, 0xFE00707F#32), ("AND.RW", 0x0000703B#32, 0xFE00707F#32),
   ("SLLW", 0x0000103B#32, 0xFE00707F#32), ("SRL.RW", 0x0000503B#32, 0xFE00707F#32),
   ("SRAW", 0x4000503B#32, 0xFE00707F#32)]

/-- The rows of R100 that access memory or have an immediate operand. -/
def rowsIS : List (String × IWord × IWord) :=
  [("ADDI", 0x00000013#32, 0x0000707F#32), ("SRLI", 0x00005013#32, 0xFE00707F#32),
   ("LB", 0x00000003#32, 0x0000707F#32), ("LW", 0x00002003#32, 0x0000707F#32), ("LD", 0x00003003#32, 0x0000707F#32),
   ("SB", 0x00000023#32, 0x0000707F#32), ("SW", 0x00002023#32, 0x0000707F#32), ("SD", 0x00003023#32, 0x0000707F#32)]

/-- The rows of R100 that transfer control. -/
def rowsBJ : List (String × IWord × IWord) :=
  [("BEQ", 0x00000063#32, 0x0000707F#32), ("BNE", 0x00001063#32, 0x0000707F#32),
   ("BLT", 0x00004063#32, 0x0000707F#32), ("BGE", 0x00005063#32, 0x0000707F#32),
   ("JAL", 0x0000006F#32, 0x0000007F#32), ("JALR", 0x00000067#32, 0x0000007F#32)]

/-- The complete opcode map (R100). -/
def opcodeTable : List (String × IWord × IWord) := rowsR ++ rowsRw ++ rowsIS ++ rowsBJ

end Sys2Proof
end

