-- ==== Sys2Proof/Machine/State.lean ====
section
/-! DEFINITION. The state of the machine, the reasons a step can stop, and the state after reset. INVENTORY.md lists every
field with its rule. -/

namespace Sys2Proof.Machine

/-- Which memory access raised a fault (60_exceptions.md R222). -/
inductive AccessKind where
  | load
  | store
  deriving DecidableEq, Repr

/-- The fault records (60_exceptions.md R220). A `raise` writes one into the run status (R225); the outcome `fault` of a step
hands out the record of an engine that stands in `Faulted` (R232; log 9). All are safe: the machine has stopped. -/
inductive Fault where
  /-- Raised by the dispatch loop or a unit for a word that selects no row (R221). Safe. -/
  | unsupportedInstruction (field : UnsupportedField)
  /-- Raised by a load or a store that touches an invalid byte or passes 2^64 (R222). Safe. -/
  | memoryFault (kind : AccessKind) (addr : Word) (width : Nat)
  /-- Raised by the dispatch loop when `pc` is neither the sentinel nor a multiple of 4 (R223; log 16). Safe. -/
  | fetchMisaligned (pc : Word)
  /-- Raised by the dispatch loop when the instruction source has no word at `pc` (R224; log 16). Safe. -/
  | fetchFault (pc : Word)
  deriving DecidableEq, Repr

/-- The reasons for which the model gives a step no outcome of the hardware. -/
inductive Refusal where
  /-- Raised by `exec` for an instruction without a meaning; no arm does. Safe. -/
  | notModelled (mnemonic : String)
  /-- Raised by the step when one of the four bytes it would fetch has been stored to during the run: R66 withholds the
  word's value (93_implementation_defined.md U6; log 7). Safe. -/
  | fetchOfStoredByte
  /-- Raised by the step of an engine that is `Stopped`: no step exists from there (R32, R269; log 9). Safe. -/
  | stepFromStopped
  deriving DecidableEq, Repr

/-- The run status (10_state.md R32). -/
inductive RunStatus where
  | running
  | stopped
  | faulted (record : Fault)
  deriving DecidableEq, Repr

/-- The seven analysis counters under the names of 10_state.md R29, 64 bits each (log 15). -/
structure Counters where
  i_count : Word
  ir_count : Word
  ld_count : Word
  st_count : Word
  j_count : Word
  b_taken : Word
  b_not_taken : Word
  deriving DecidableEq, Repr

/-- What an instruction is counted as besides `i_count` (R30). -/
inductive Category where
  | ir
  | load
  | store
  | jump
  | branchTaken
  | branchNotTaken
  deriving DecidableEq, Repr

/-- Data memory: cells in rising order of address, no zero byte listed; an unlisted byte reads 0 (log 5). -/
abbrev Memory := List Host.Cell

/-- The bytes the instruction source serves, in rising order of address; an unlisted address is not served (log 6). -/
abbrev CodeStore := List Host.Cell

/-- All the state of one run (10_state.md R20 to R32, 00_scope.md R9). -/
structure State where
  /-- `x[0]` to `x[31]` (R20). Read and written only through `readReg` and `writeReg`, which hard-wire `x[0]`. -/
  regs : Vector Word 32
  /-- The program counter (R25). -/
  pc : Word
  /-- The analysis counters (R29). -/
  ctr : Counters
  /-- The run status (R32). -/
  status : RunStatus
  /-- The bytes of the stack region and the image regions (R50 to R53). -/
  mem : Memory
  /-- The MODEL's own field: addresses that a store has written since reset, rising (R66, U6; log 7). -/
  stored : List Nat
  /-- The instruction source `IFetch` (R37), fixed for a run. -/
  code : CodeStore
  /-- The parameters of the platform (R9), fixed for a run (log 1). -/
  platform : Platform
  deriving DecidableEq, Repr

/-- All seven counters 0 (R40). -/
def Counters.zero : Counters :=
  { i_count := 0, ir_count := 0, ld_count := 0, st_count := 0, j_count := 0, b_taken := 0, b_not_taken := 0 }

/-- The state after the host's reset (70_reset_and_hazards.md R261, 10_state.md R40) on the platform of log 2 with the
arguments of log 3: x1 holds the sentinel, x2 one past the end of the stack, x10 to x13 the arguments, every other register
0; every stack byte 0; counters 0; Running. Nothing is loaded in the instruction source (log 4). -/
def State.reset : State :=
  { regs := #v[0, Config.resetPlatform.stopSentinel,
               Config.resetPlatform.stackBase + BitVec.ofNat 64 Config.resetPlatform.stackSize, 0, 0, 0, 0, 0,
               0, 0, Config.resetArgument, Config.resetArgument, Config.resetArgument, Config.resetArgument, 0, 0,
               0, 0, 0, 0, 0, 0, 0, 0,
               0, 0, 0, 0, 0, 0, 0, 0]
    pc := Config.resetTarget
    ctr := Counters.zero
    status := .running
    mem := []
    stored := []
    code := []
    platform := Config.resetPlatform }

end Sys2Proof.Machine
end

