-- ==== Sys2Proof/Machine/Ops.lean ====
section
/-! DEFINITION. The named operations over registers, memory and the instruction source; raising a fault; stopping. -/

namespace Sys2Proof.Machine

/-! ### Registers -/

/-- The number of RA, JALR's link register (00_scope.md R8; the spec's decision D2, log 10). -/
def regRA : RegIdx := 1

/-- The number of SP, seeded at reset (R8, log 10). -/
def regSP : RegIdx := 2

/-- The number of A0, the first argument and the result (R8). -/
def regA0 : RegIdx := 10

/-- `x[i]` as an instruction reads it: `x[0]` reads 0 (10_state.md R21). -/
def State.readReg (s : State) (i : RegIdx) : Word := if i = 0 then 0 else s.regs[i]

/-- `x[i] <- v`: a write to `x[0]` is discarded (10_state.md R22, log 17). -/
def State.writeReg (s : State) (i : RegIdx) (v : Word) : State :=
  if i = 0 then s else { s with regs := s.regs.set i v }

/-! ### Bytes of data memory -/

/-- The byte at an address; what no cell lists is 0 (log 5). -/
def readByte : Memory → Nat → Byte
  | [], _ => 0
  | (b, w) :: rest, a => if a = b then w else readByte rest a

/-- The cells of a memory that holds `v` at `a` before the cells `rest`: a zero byte is not listed. -/
def consByte (a : Nat) (v : Byte) (rest : Memory) : Memory := if v = 0 then rest else (a, v) :: rest

/-- Writing one byte: the cells stay in rising order and no zero is listed. -/
def writeByte : Memory → Nat → Byte → Memory
  | [], a, v => consByte a v []
  | (b, w) :: rest, a, v =>
    if a < b then consByte a v ((b, w) :: rest)
    else if a = b then consByte a v rest
    else (b, w) :: writeByte rest a v

/-- Writing the bytes `f 0` to `f (n-1)` from address `a` upwards. -/
def writeBytes (m : Memory) (a : Nat) : (n : Nat) → (Nat → Byte) → Memory
  | 0, _ => m
  | n + 1, f => writeBytes (writeByte m a (f 0)) (a + 1) n (fun k => f (k + 1))

/-- The canonical form of a list of cells: addresses strictly rising. -/
def cellsRising : List Host.Cell → Bool
  | [] => true
  | [_] => true
  | (a, _) :: (b, w) :: rest => decide (a < b) && cellsRising ((b, w) :: rest)

/-- The canonical form of data memory: addresses strictly rising, no byte listed that equals what an unlisted one reads. -/
def Memory.wf (m : Memory) : Bool := cellsRising m && m.all (fun c => decide (c.2 ≠ 0))

/-! ### Valid addresses (20_memory.md R51 to R53) -/

/-- Whether an address lies in the span of `size` bytes from `base`. -/
def inSpan (base : Word) (size a : Nat) : Bool := decide (base.toNat ≤ a) && decide (a < base.toNat + size)

/-- A byte of the stack region (R52). -/
def inStack (p : Platform) (a : Nat) : Bool := inSpan p.stackBase p.stackSize a

/-- A byte of an image region (R53). -/
def inImage (p : Platform) (a : Nat) : Bool := p.image.any (fun r => inSpan r.base r.size a)

/-- A valid address: in the stack region or an image region, readable and writable alike (R51, R64). -/
def validAddr (p : Platform) (a : Nat) : Bool := inStack p a || inImage p a

/-- The test of `MemRead` and `MemWrite`: the n bytes do not pass 2^64 and each of them is valid (R56, R57; log 16). -/
def accessOk (p : Platform) (addr : Word) (n : Nat) : Bool :=
  decide (addr.toNat + n ≤ 2 ^ 64) && (List.range n).all (fun k => validAddr p (addr.toNat + k))

/-! ### The memory primitives -/

/-- `MemRead(addr, n)` (R56): the 8n-bit little-endian value, or the fault to raise. -/
def memRead (s : State) (addr : Word) (n : Nat) : Except Fault (BitVec (8 * n)) :=
  if accessOk s.platform addr n then .ok (leJoin n (fun k => readByte s.mem (addr.toNat + k)))
  else .error (.memoryFault .load addr n)

/-- Adding an address to a rising list of addresses. -/
def noteAddr : List Nat → Nat → List Nat
  | [], a => [a]
  | b :: rest, a => if a < b then a :: b :: rest else if a = b then b :: rest else b :: noteAddr rest a

/-- Adding the n addresses from `a` upwards. -/
def noteAddrs (l : List Nat) (a : Nat) : Nat → List Nat
  | 0 => l
  | n + 1 => noteAddrs (noteAddr l a) (a + 1) n

/-- `MemWrite(addr, n, v)` (R57): all n bytes are checked before one is written. The addresses are remembered as stored to
(R66, log 7). -/
def memWrite (s : State) (addr : Word) (n : Nat) (v : BitVec (8 * n)) : Except Fault State :=
  if accessOk s.platform addr n then
    .ok { s with
      mem := writeBytes s.mem addr.toNat n (fun k => leByte v k)
      stored := noteAddrs s.stored addr.toNat n }
  else .error (.memoryFault .store addr n)

/-! ### The instruction source (10_state.md R37; log 6) -/

/-- The byte served at an address, if there is one. -/
def codeByte : CodeStore → Nat → Option Byte
  | [], _ => none
  | (b, w) :: rest, a => if a = b then some w else codeByte rest a

/-- Installing one byte (a host's act, never an instruction's): the cells stay in rising order. -/
def putCodeByte : CodeStore → Nat → Byte → CodeStore
  | [], a, v => [(a, v)]
  | (b, w) :: rest, a, v =>
    if a < b then (a, v) :: (b, w) :: rest
    else if a = b then (a, v) :: rest
    else (b, w) :: putCodeByte rest a v

/-- Installing bytes from an address upwards. -/
def putCode (c : CodeStore) (a : Nat) : List Byte → CodeStore
  | [] => c
  | v :: vs => putCode (putCodeByte c a v) (a + 1) vs

/-- `IFetch(a)`: the word of the four bytes at `a`, little-endian (R37, R54), when all four are served. -/
def iFetch (c : CodeStore) (a : Nat) : Option IWord :=
  match codeByte c a, codeByte c (a + 1), codeByte c (a + 2), codeByte c (a + 3) with
  | some b0, some b1, some b2, some b3 => some (leJoin 4 (fun k => [b0, b1, b2, b3].getD k 0#8))
  | _, _, _, _ => none

/-- Whether a store has written one of the four bytes at `a` during the run (R66, log 7). -/
def fetchIsStored (s : State) (a : Nat) : Bool := (List.range 4).any (fun k => s.stored.contains (a + k))

/-! ### Faults and the stop -/

/-- `raise F(info)` (60_exceptions.md R225), the one way a fault is taken: the run status becomes `Faulted(F(info))` and the
step ends. No state is saved, no mode changes, control goes to no handler (R232), and there is no return (R233). The other
fields keep what they held, which R226 allows and which nothing may rely on (log 8). -/
def raise (f : Fault) (s : State) : Host.Outcome State Fault Refusal := .next { s with status := .faulted f }

/-- Termination at the sentinel (40_dispatch.md R121): only the status changes. -/
def stop (s : State) : Host.Outcome State Fault Refusal := .next { s with status := .stopped }

end Sys2Proof.Machine
end

