-- ==== Sys2Proof/Machine/Operands.lean ====
section
/-! DEFINITION. Operand forms: extended immediates, shift amounts, effective addresses, next values of `pc`. -/

namespace Sys2Proof.Machine

/-- `sext_64` of a bit vector (00_scope.md R14, R15). -/
def sext64 {k : Nat} (v : BitVec k) : Word := v.signExtend 64

/-- `zext_64` of a bit vector (R15). -/
def zext64 {k : Nat} (v : BitVec k) : Word := v.setWidth 64

/-- The amount of a 64-bit register shift: `x[rs2][5:0]` (41_r_type.md R142; log 11). -/
def shiftAmount6 (v : Word) : Nat := (v.extractLsb' 0 6).toNat

/-- The amount of a 32-bit register shift: `x[rs2][4:0]` (R142; log 11). -/
def shiftAmount5 (v : Word) : Nat := (v.extractLsb' 0 5).toNat

/-- The effective address of a load or store: `(x[rs1] + sext_64(imm12)) mod 2^64` (20_memory.md R58). -/
def effAddr (s : State) (rs1 : RegIdx) (imm : BitVec 12) : Word := s.readReg rs1 + sext64 imm

/-- `pc + 4` modulo 2^64: the sequential successor, and the link value of JAL and JALR (10_state.md R25, R26, R28). -/
def pcPlus4 (s : State) : Word := s.pc + 4#64

/-- `(pc + offset) mod 2^64`, relative to the instruction itself (R26, R28, 45_branch.md R200, 46_jal.md R210). -/
def pcRelative {k : Nat} (s : State) (off : BitVec k) : Word := s.pc + sext64 off

end Sys2Proof.Machine
end

