-- ==== Sys2Proof/Machine/Flags.lean ====
section
/-! DEFINITION. The machine has no flags (10_state.md R33). What stands in their place: the branch conditions over two
registers, and the analysis counters that every completed instruction updates. -/

namespace Sys2Proof.Machine

/-- Equality of all 64 bits (45_branch.md R201). -/
def condEq (a b : Word) : Bool := decide (a = b)

/-- Inequality (R202). -/
def condNe (a b : Word) : Bool := decide (a ≠ b)

/-- Signed less-than (R203): on the integers the two registers denote. -/
def condLt (a b : Word) : Bool := decide (a.toInt < b.toInt)

/-- Signed greater-or-equal (R204). -/
def condGe (a b : Word) : Bool := decide (a.toInt ≥ b.toInt)

/-- One completed instruction of a category (10_state.md R30): `i_count` and the category's counter, modulo 2^64 (log 15). -/
def Counters.count (c : Counters) : Category → Counters
  | .ir => { c with i_count := c.i_count + 1, ir_count := c.ir_count + 1 }
  | .load => { c with i_count := c.i_count + 1, ld_count := c.ld_count + 1 }
  | .store => { c with i_count := c.i_count + 1, st_count := c.st_count + 1 }
  | .jump => { c with i_count := c.i_count + 1, j_count := c.j_count + 1 }
  | .branchTaken => { c with i_count := c.i_count + 1, b_taken := c.b_taken + 1 }
  | .branchNotTaken => { c with i_count := c.i_count + 1, b_not_taken := c.b_not_taken + 1 }

/-- The end of an instruction that completes (40_dispatch.md R126 (e)): its counters and its next `pc`. -/
def State.retire (s : State) (cat : Category) (nextPc : Word) : State :=
  { s with ctr := s.ctr.count cat, pc := nextPc }

end Sys2Proof.Machine
end

