-- ==== Sys2Proof/Machine/Branch.lean ====
section
/-! DEFINITION. The branch unit (45_branch.md). -/

namespace Sys2Proof.Machine

/-- Taken: `pc + offset` and `b_taken`; not taken: `pc + 4` and `b_not_taken` (R200). -/
def branchIf (taken : Bool) (off : BitVec 12) (s : State) : Host.Outcome State Fault Refusal :=
  if taken then .next (s.retire .branchTaken (pcRelative s off))
  else .next (s.retire .branchNotTaken (pcPlus4 s))

/-- BEQ (R201). -/
def execBeq (rs1 rs2 : RegIdx) (off : BitVec 12) (s : State) : Host.Outcome State Fault Refusal :=
  branchIf (condEq (s.readReg rs1) (s.readReg rs2)) off s

/-- BNE (R202). -/
def execBne (rs1 rs2 : RegIdx) (off : BitVec 12) (s : State) : Host.Outcome State Fault Refusal :=
  branchIf (condNe (s.readReg rs1) (s.readReg rs2)) off s

/-- BLT (R203). -/
def execBlt (rs1 rs2 : RegIdx) (off : BitVec 12) (s : State) : Host.Outcome State Fault Refusal :=
  branchIf (condLt (s.readReg rs1) (s.readReg rs2)) off s

/-- BGE (R204). -/
def execBge (rs1 rs2 : RegIdx) (off : BitVec 12) (s : State) : Host.Outcome State Fault Refusal :=
  branchIf (condGe (s.readReg rs1) (s.readReg rs2)) off s

end Sys2Proof.Machine
end

