-- ==== Sys2Proof/Machine/RType.lean ====
section
/-! DEFINITION. The R-type unit (41_r_type.md). The five `.RW` instructions do the 64-bit operation of their partners
(90_conflicts.md C10); SLLW and SRAW are the two 32-bit ones. -/

namespace Sys2Proof.Machine

/-- How every instruction of the R-type and I-arithmetic units ends: result to `x[rd]`, `pc + 4`, the R/I counter (R140, R170). -/
def completeIR (rd : RegIdx) (result : Word) (s : State) : Host.Outcome State Fault Refusal :=
  .next ((s.writeReg rd result).retire .ir (pcPlus4 s))

/-- SLLW's result: the low 32 bits shifted within 32 bits, sign-extended (R154; log 11). -/
def shiftLeft32 (a b : Word) : Word := sext64 ((a.setWidth 32) <<< shiftAmount5 b)

/-- SRAW's result: the low 32 bits shifted arithmetically, sign-extended (R156; log 11). -/
def shiftRightArith32 (a b : Word) : Word := sext64 ((a.setWidth 32).sshiftRight (shiftAmount5 b))

/-- ADD (R143). -/
def execAdd (rd rs1 rs2 : RegIdx) (s : State) : Host.Outcome State Fault Refusal :=
  completeIR rd (s.readReg rs1 + s.readReg rs2) s

/-- SUB (R144). -/
def execSub (rd rs1 rs2 : RegIdx) (s : State) : Host.Outcome State Fault Refusal :=
  completeIR rd (s.readReg rs1 - s.readReg rs2) s

/-- MUL (R145): the low 64 bits of the product. -/
def execMul (rd rs1 rs2 : RegIdx) (s : State) : Host.Outcome State Fault Refusal :=
  completeIR rd (s.readReg rs1 * s.readReg rs2) s

/-- AND (R146). -/
def execAnd (rd rs1 rs2 : RegIdx) (s : State) : Host.Outcome State Fault Refusal :=
  completeIR rd (s.readReg rs1 &&& s.readReg rs2) s

/-- SLL (R147). -/
def execSll (rd rs1 rs2 : RegIdx) (s : State) : Host.Outcome State Fault Refusal :=
  completeIR rd (s.readReg rs1 <<< shiftAmount6 (s.readReg rs2)) s

/-- SRL (R148). -/
def execSrl (rd rs1 rs2 : RegIdx) (s : State) : Host.Outcome State Fault Refusal :=
  completeIR rd (s.readReg rs1 >>> shiftAmount6 (s.readReg rs2)) s

/-- SRA (R149). -/
def execSra (rd rs1 rs2 : RegIdx) (s : State) : Host.Outcome State Fault Refusal :=
  completeIR rd ((s.readReg rs1).sshiftRight (shiftAmount6 (s.readReg rs2))) s

/-- ADD.RW (R150): exactly ADD. -/
def execAddRw (rd rs1 rs2 : RegIdx) (s : State) : Host.Outcome State Fault Refusal :=
  completeIR rd (s.readReg rs1 + s.readReg rs2) s

/-- SUB.RW (R151): exactly SUB. -/
def execSubRw (rd rs1 rs2 : RegIdx) (s : State) : Host.Outcome State Fault Refusal :=
  completeIR rd (s.readReg rs1 - s.readReg rs2) s

/-- MUL.RW (R152): exactly MUL. -/
def execMulRw (rd rs1 rs2 : RegIdx) (s : State) : Host.Outcome State Fault Refusal :=
  completeIR rd (s.readReg rs1 * s.readReg rs2) s

/-- AND.RW (R153): exactly AND. -/
def execAndRw (rd rs1 rs2 : RegIdx) (s : State) : Host.Outcome State Fault Refusal :=
  completeIR rd (s.readReg rs1 &&& s.readReg rs2) s

/-- SLLW (R154). -/
def execSllw (rd rs1 rs2 : RegIdx) (s : State) : Host.Outcome State Fault Refusal :=
  completeIR rd (shiftLeft32 (s.readReg rs1) (s.readReg rs2)) s

/-- SRL.RW (R155): exactly SRL. -/
def execSrlRw (rd rs1 rs2 : RegIdx) (s : State) : Host.Outcome State Fault Refusal :=
  completeIR rd (s.readReg rs1 >>> shiftAmount6 (s.readReg rs2)) s

/-- SRAW (R156). -/
def execSraw (rd rs1 rs2 : RegIdx) (s : State) : Host.Outcome State Fault Refusal :=
  completeIR rd (shiftRightArith32 (s.readReg rs1) (s.readReg rs2)) s

end Sys2Proof.Machine
end

