-- ==== Sys2Proof/Machine/IArith.lean ====
section
/-! DEFINITION. The I-arithmetic unit (42_i_arith.md). -/

namespace Sys2Proof.Machine

/-- ADDI (R171). -/
def execAddi (rd rs1 : RegIdx) (imm : BitVec 12) (s : State) : Host.Outcome State Fault Refusal :=
  completeIR rd (s.readReg rs1 + sext64 imm) s

/-- SRLI (R172): the amount is the 5-bit field, 0 to 31 (R94). -/
def execSrli (rd rs1 : RegIdx) (shamt : BitVec 5) (s : State) : Host.Outcome State Fault Refusal :=
  completeIR rd (s.readReg rs1 >>> shamt.toNat) s

end Sys2Proof.Machine
end

