-- ==== Sys2Proof/Machine/Jump.lean ====
section
/-! DEFINITION. The J-type unit (46_jal.md) and the JALR unit (47_jalr.md). -/

namespace Sys2Proof.Machine

/-- JAL (R210): the link goes to `x[rd]` unless `rd = 0`; link and target come from the address of the JAL. -/
def execJal (rd : RegIdx) (off : BitVec 21) (s : State) : Host.Outcome State Fault Refusal :=
  .next ((s.writeReg rd (pcPlus4 s)).retire .jump (pcRelative s off))

/-- JALR (R215): the target uses `x[rs1]` from before the link write (log 13) and no bit of it is cleared; the link goes to
`x[1]`, never to `x[rd]`, and only when `rd` is not 0. -/
def execJalr (rd rs1 : RegIdx) (imm : BitVec 12) (s : State) : Host.Outcome State Fault Refusal :=
  .next ((if rd = 0 then s else s.writeReg regRA (pcPlus4 s)).retire .jump (effAddr s rs1 imm))

end Sys2Proof.Machine
end

