-- ==== Sys2Proof/Machine/Load.lean ====
section
/-! DEFINITION. The load unit (43_load.md). -/

namespace Sys2Proof.Machine

/-- The load of n bytes, zero-extended (R180): the read happens, and can fault, also when `rd = 0`. -/
def loadZeroExtended (n : Nat) (rd rs1 : RegIdx) (imm : BitVec 12) (s : State) : Host.Outcome State Fault Refusal :=
  match memRead s (effAddr s rs1 imm) n with
  | .ok v => .next ((s.writeReg rd (zext64 v)).retire .load (pcPlus4 s))
  | .error f => raise f s

/-- LB (R181): one byte, zero-extended. -/
def execLb (rd rs1 : RegIdx) (imm : BitVec 12) (s : State) : Host.Outcome State Fault Refusal :=
  loadZeroExtended 1 rd rs1 imm s

/-- LW (R182): four bytes, zero-extended. -/
def execLw (rd rs1 : RegIdx) (imm : BitVec 12) (s : State) : Host.Outcome State Fault Refusal :=
  loadZeroExtended 4 rd rs1 imm s

/-- LD (R183): eight bytes. -/
def execLd (rd rs1 : RegIdx) (imm : BitVec 12) (s : State) : Host.Outcome State Fault Refusal :=
  loadZeroExtended 8 rd rs1 imm s

end Sys2Proof.Machine
end

