-- ==== Sys2Proof/Machine/Store.lean ====
section
/-! DEFINITION. The store unit (44_store.md). -/

namespace Sys2Proof.Machine

/-- The store of the low n bytes of `x[rs2]` (R190). -/
def storeLow (n : Nat) (rs2 rs1 : RegIdx) (imm : BitVec 12) (s : State) : Host.Outcome State Fault Refusal :=
  match memWrite s (effAddr s rs1 imm) n ((s.readReg rs2).setWidth (8 * n)) with
  | .ok t => .next (t.retire .store (pcPlus4 s))
  | .error f => raise f s

/-- SB (R191). -/
def execSb (rs2 rs1 : RegIdx) (imm : BitVec 12) (s : State) : Host.Outcome State Fault Refusal :=
  storeLow 1 rs2 rs1 imm s

/-- SW (R192). -/
def execSw (rs2 rs1 : RegIdx) (imm : BitVec 12) (s : State) : Host.Outcome State Fault Refusal :=
  storeLow 4 rs2 rs1 imm s

/-- SD (R193). -/
def execSd (rs2 rs1 : RegIdx) (imm : BitVec 12) (s : State) : Host.Outcome State Fault Refusal :=
  storeLow 8 rs2 rs1 imm s

end Sys2Proof.Machine
end

