-- ==== Sys2Proof/Machine/Engine.lean ====
section
/-! DEFINITION. The dispatch loop's one step (40_dispatch.md R120), and where a word must stand for the step to run it. -/

namespace Sys2Proof.Machine

/-- `pc[1:0] != 0` (R122). -/
def pcMisaligned (pc : Word) : Bool := decide (pc.extractLsb' 0 2 ≠ 0#2)

/-- Steps 4 to 6 of R120: decode the fetched word, run it or raise. -/
def runWord (w : IWord) (s : State) : Host.Outcome State Fault Refusal :=
  match decode w with
  | .ok i => exec i s
  | .error f => raise (.unsupportedInstruction f) s

/-- Steps 2 to 6 of R120 at a `pc` that is not the sentinel: alignment, service, and the refusal of R66 (log 7). -/
def fetchAndRun (s : State) : Host.Outcome State Fault Refusal :=
  if pcMisaligned s.pc then raise (.fetchMisaligned s.pc) s
  else
    match iFetch s.code s.pc.toNat with
    | none => raise (.fetchFault s.pc) s
    | some w => if fetchIsStored s s.pc.toNat then .refused .fetchOfStoredByte else runWord w s

/-- The step (R120), defined while Running; the sentinel is tested before anything else (R121, R231). `Stopped` and
`Faulted` are terminal (R32, R233; log 9). -/
def engineStep (s : State) : Host.Outcome State Fault Refusal :=
  match s.status with
  | .running => if s.pc = s.platform.stopSentinel then stop s else fetchAndRun s
  | .stopped => .refused .stepFromStopped
  | .faulted f => .fault f

/-- `pc` with its two low bits cleared. -/
def alignedPc (s : State) : Word := s.pc &&& ~~~3#64

/-- Where `placeWord` puts its word: `pc` itself when the step would fetch there, else a near address where it would (log 4). -/
def fetchSpot (s : State) : Word :=
  if alignedPc s = s.platform.stopSentinel then alignedPc s + 4#64 else alignedPc s

/-- The state in which the next step fetches and runs `w`: the host has installed the word at the fetch address, the
engine is Running, and none of the word's bytes counts as stored to. -/
def placeWord (s : State) (w : IWord) : State :=
  let spot := fetchSpot s
  { s with
    pc := spot
    status := .running
    code := putCode s.code spot.toNat (wordBytes w)
    stored := s.stored.filter (fun a => decide (a < spot.toNat) || decide (spot.toNat + 4 ≤ a)) }

end Sys2Proof.Machine
end

