-- ==== Sys2Proof/Machine/Step.lean ====
section
/-! DEFINITION. The step of the machine, and the placing of a word for its next fetch. -/

namespace Sys2Proof.Machine

/-- One step of the engine (40_dispatch.md R120). -/
def step (s : State) : Host.Outcome State Fault Refusal := engineStep s

/-- The state in which the next step runs the table's word of `nbits` bits (log 4). -/
def State.withFetchWord (s : State) (nbits w : Nat) : State := placeWord s (BitVec.ofNat 32 (w % 2 ^ nbits))

end Sys2Proof.Machine
end

