-- ==== Sys2Proof/Machine/HostControl.lean ====
section
/-! DEFINITION. The host control interface (10_state.md R39, 70_reset_and_hazards.md R260 to R269; log 18): load, reset,
run, read-out. The host acts only before the first step and after the last (R268); no step calls these. -/

namespace Sys2Proof.Machine

/-- The memory after the host has loaded the initial bytes of the image regions, in the order of the list (R53, R265). -/
def loadImage (m : Memory) : List Region → Memory
  | [] => m
  | r :: rest => loadImage (writeBytes m r.base.toNat r.init.length (fun k => r.init.getD k 0)) rest

/-- What the host does before reset (R265 (1) and (2)): it fixes the parameters, installs the instruction source and loads
the image bytes. -/
def State.hostLoad (s : State) (p : Platform) (code : CodeStore) : State :=
  { s with platform := p, code := code, mem := loadImage [] p.image }

/-- The register file that reset leaves (R261): zeros, then the six seeds. -/
def resetRegs (p : Platform) (a0 a1 a2 a3 : Word) : Vector Word 32 :=
  (((((Vector.replicate 32 (0 : Word)).set regA0 a0).set 11 a1).set 12 a2).set 13 a3).set regRA p.stopSentinel
    |>.set regSP (p.stackBase + BitVec.ofNat 64 p.stackSize)

/-- Zeroing the stack region: its cells go, every other cell stays (R261, R263). -/
def clearStack (p : Platform) (m : Memory) : Memory := m.filter (fun c => !inStack p c.1)

/-- `init(target_address, a0, a1, a2, a3)` (R261), possible in any status (R260). The image bytes, the instruction source and
the parameters stay (R263); a new run begins, so no byte counts as stored to (log 7). -/
def State.hostInit (s : State) (target a0 a1 a2 a3 : Word) : State :=
  { s with
    regs := resetRegs s.platform a0 a1 a2 a3
    pc := target
    ctr := Counters.zero
    status := .running
    mem := clearStack s.platform s.mem
    stored := [] }

/-- `emulate` (R39 (b), R268): steps until the status is terminal. The fuel is the model's, not the hardware's (R128); an
answer that is still Running is a run cut short, no end of it. DESIGN CHOICE (log 21): started on a Stopped or Faulted
state without a reset, a use R269 does not define, it makes no step and answers that state unchanged. -/
def emulate : Nat → State → Host.Outcome State Fault Refusal
  | 0, s => .next s
  | fuel + 1, s =>
    match s.status with
    | .running =>
      match step s with
      | .next t => emulate fuel t
      | .fault f => .fault f
      | .refused r => .refused r
    | .stopped => .next s
    | .faulted _ => .next s

/-- What the host reads after a run (R39 (c), R129). -/
inductive ReadOut where
  | result (a0 : Word) (ctr : Counters)
  | record (f : Fault)
  deriving DecidableEq, Repr

/-- The read-out: `x[10]` and the counters at Stopped, the fault record and nothing else at Faulted (R226), and nothing
while Running (R268). -/
def readOut (s : State) : Option ReadOut :=
  match s.status with
  | .running => none
  | .stopped => some (.result (s.readReg regA0) s.ctr)
  | .faulted f => some (.record f)

end Sys2Proof.Machine
end

