-- ==== Sys2Proof/Safety.lean ====
section
/-! DEFINITION. The terms in which claims speak: the invariant of the state, safe runs, what an instruction leaves alone, and
the shapes of an instruction's effect. -/

namespace Sys2Proof.Machine

/-! ### The invariant -/

/-- Addresses strictly rising. -/
def addrsRising : List Nat → Bool
  | [] => true
  | [_] => true
  | a :: b :: rest => decide (a < b) && addrsRising (b :: rest)

/-- The counters add up modulo 2^64 (10_state.md R31); as natural numbers see `Counters.addUp`. -/
def Counters.balanced (c : Counters) : Bool :=
  decide (c.i_count = c.ir_count + c.ld_count + c.st_count + c.j_count + c.b_taken + c.b_not_taken)

/-- The identity of R31 as natural numbers. -/
def Counters.addUp (c : Counters) : Prop :=
  c.i_count.toNat = c.ir_count.toNat + c.ld_count.toNat + c.st_count.toNat + c.j_count.toNat + c.b_taken.toNat
    + c.b_not_taken.toNat

/-- What every state of a run satisfies: the canonical forms, only valid bytes hold something, the register behind `x[0]` is
0 (R21), and, unless it has faulted, the counters add up (R31). Of a Faulted state nothing is said about any counter, any
byte at a valid address, `pc` or `x[1]` to `x[31]` (60_exceptions.md R226): the first five clauses are about how the
model writes its lists down, and hold so that `init` can follow a fault (R260). -/
structure State.Inv (s : State) : Prop where
  mem_wf : Memory.wf s.mem = true
  mem_valid : ∀ c ∈ s.mem, validAddr s.platform c.1 = true
  stored_rising : addrsRising s.stored = true
  stored_valid : ∀ a ∈ s.stored, validAddr s.platform a = true
  code_rising : cellsRising s.code = true
  x0_zero : s.regs[0] = 0
  counters : (∀ f, s.status ≠ .faulted f) → s.ctr.balanced = true

/-- The constraint of 00_scope.md R9 on the sentinel: the instruction source has no word there. The machine does not need it
(93_implementation_defined.md U7); a claim about a program may assume it. -/
def State.sentinelUnserved (s : State) : Prop := iFetch s.code s.platform.stopSentinel.toNat = none

/-! ### Runs -/

/-- `t` is the state after k steps from `s`. -/
def Reaches (s : State) (k : Nat) (t : State) : Prop := Host.Core.run Sys2Proof.core k s = .next t

/-- No state of the run from `s` has faulted. -/
def SafeRun (s : State) : Prop := ∀ k t, Reaches s k t → ∀ f, t.status ≠ .faulted f

/-! ### What stays -/

/-- Every byte of data memory reads as before. -/
def SameMemory (s t : State) : Prop := ∀ a, readByte t.mem a = readByte s.mem a

/-- Every byte outside the n bytes from address `a` reads as before. -/
def SameMemoryOutside (s t : State) (a n : Nat) : Prop :=
  ∀ b, (b < a ∨ a + n ≤ b) → readByte t.mem b = readByte s.mem b

/-- The status, the instruction source and the parameters are as before. -/
def SameSetup (s t : State) : Prop := t.status = s.status ∧ t.code = s.code ∧ t.platform = s.platform

/-- Every general register but `rd` reads as before, and `x[0]` reads 0. -/
def SameRegsBut (s t : State) (rd : RegIdx) : Prop := t.readReg 0 = 0 ∧ ∀ r, r ≠ rd → t.readReg r = s.readReg r

/-- Every general register reads as before. -/
def SameRegs (s t : State) : Prop := ∀ r, t.readReg r = s.readReg r

/-! ### Words and access -/

/-- Every word that selects the row (match, mask) decodes to the instruction `mk` makes of it. -/
def RowDecodesTo (pattern mask : IWord) (mk : IWord → Instr) : Prop := ∀ w, w &&& mask = pattern → decode w = .ok (mk w)

/-- The n bytes from `addr` up do not pass 2^64 and each is valid (20_memory.md R56, R57). -/
def BytesValid (s : State) (addr : Word) (n : Nat) : Prop :=
  addr.toNat + n ≤ 2 ^ 64 ∧ ∀ k, k < n → validAddr s.platform (addr.toNat + k) = true

/-- The k-th byte of data memory from `addr` up. -/
def byteAt (s : State) (addr : Word) (k : Nat) : Byte := readByte s.mem (addr.toNat + k)

/-! ### The shapes of an effect -/

/-- A register-only instruction of the R-type or I-arithmetic unit: `x[rd]` gets a value with `P`, `pc + 4`, `i_count` and
`ir_count` one up, everything else as before. With `rd = 0` no register changes. -/
def ComputesIR (i : Instr) (rd : RegIdx) (P : Word → Prop) (s : State) : Prop :=
  ∃ t, exec i s = .next t ∧ (rd ≠ 0 → P (t.readReg rd)) ∧ SameRegsBut s t rd ∧ t.pc = s.pc + 4#64
    ∧ t.ctr = { s.ctr with i_count := s.ctr.i_count + 1, ir_count := s.ctr.ir_count + 1 }
    ∧ SameMemory s t ∧ t.stored = s.stored ∧ SameSetup s t

/-- A load of n bytes at `addr`: with all bytes valid `x[rd]` gets `v`, `pc + 4`, `i_count` and `ld_count` one up and
everything else as before; otherwise the engine is Faulted with MemoryFault(load, addr, n). -/
def LoadsFrom (i : Instr) (rd : RegIdx) (addr : Word) (n : Nat) (v : Word) (s : State) : Prop :=
  (BytesValid s addr n →
    ∃ t, exec i s = .next t ∧ (rd ≠ 0 → t.readReg rd = v) ∧ SameRegsBut s t rd ∧ t.pc = s.pc + 4#64
      ∧ t.ctr = { s.ctr with i_count := s.ctr.i_count + 1, ld_count := s.ctr.ld_count + 1 }
      ∧ SameMemory s t ∧ t.stored = s.stored ∧ SameSetup s t)
  ∧ (¬ BytesValid s addr n → ∃ t, exec i s = .next t ∧ t.status = .faulted (.memoryFault .load addr n))

/-- A store of the n low bytes of `v` at `addr`: with all bytes valid byte k of `v` stands at `addr + k`, every other byte
and every register is as before, `pc + 4`, `i_count` and `st_count` one up, and exactly the n addresses join those stored
to; otherwise the engine is Faulted with MemoryFault(store, addr, n). -/
def StoresTo (i : Instr) (addr : Word) (n : Nat) (v : Word) (s : State) : Prop :=
  (BytesValid s addr n →
    ∃ t, exec i s = .next t
      ∧ (∀ k, k < n → byteAt t addr k = (v >>> (8 * k)).setWidth 8)
      ∧ SameMemoryOutside s t addr.toNat n ∧ SameRegs s t ∧ t.pc = s.pc + 4#64
      ∧ t.ctr = { s.ctr with i_count := s.ctr.i_count + 1, st_count := s.ctr.st_count + 1 }
      ∧ (∀ a, a ∈ t.stored ↔ a ∈ s.stored ∨ (addr.toNat ≤ a ∧ a < addr.toNat + n)) ∧ SameSetup s t)
  ∧ (¬ BytesValid s addr n → ∃ t, exec i s = .next t ∧ t.status = .faulted (.memoryFault .store addr n))

/-- What the step after `t` does where `t` is Running and its `pc` is no place to fetch from: not a multiple of 4,
FetchMisaligned; a multiple of 4 that is not served, FetchFault. At the sentinel neither is raised. -/
def BadTargetFaultsNext (t : State) : Prop :=
  t.status = .running → t.pc ≠ t.platform.stopSentinel →
    (t.pc.toNat % 4 ≠ 0 → ∃ u, step t = .next u ∧ u.status = .faulted (.fetchMisaligned t.pc))
      ∧ (t.pc.toNat % 4 = 0 → iFetch t.code t.pc.toNat = none →
          ∃ u, step t = .next u ∧ u.status = .faulted (.fetchFault t.pc))

/-- A branch whose condition is `c`: taken, `pc` moves by the signed offset in bytes and `b_taken` counts; not taken, `pc + 4`
and `b_not_taken` counts; everything else as before. -/
def BranchesOn (i : Instr) (c : Prop) (off : BitVec 12) (s : State) : Prop :=
  ∃ t, exec i s = .next t ∧ SameRegs s t ∧ SameMemory s t ∧ t.stored = s.stored ∧ SameSetup s t
    ∧ (c → t.pc = s.pc + BitVec.ofInt 64 off.toInt
        ∧ t.ctr = { s.ctr with i_count := s.ctr.i_count + 1, b_taken := s.ctr.b_taken + 1 })
    ∧ (¬ c → t.pc = s.pc + 4#64
        ∧ t.ctr = { s.ctr with i_count := s.ctr.i_count + 1, b_not_taken := s.ctr.b_not_taken + 1 })
    ∧ BadTargetFaultsNext t

/-! ### What an instruction is -/

/-- The register an instruction may write: `rd`, for JALR `x[1]` (10_state.md R24), for stores and branches none. -/
def destOf : Instr → Option RegIdx
  | .add rd _ _ | .sub rd _ _ | .mul rd _ _ | .and rd _ _ | .sll rd _ _ | .srl rd _ _ | .sra rd _ _
  | .addRw rd _ _ | .subRw rd _ _ | .mulRw rd _ _ | .andRw rd _ _ | .sllw rd _ _ | .srlRw rd _ _ | .sraw rd _ _
  | .addi rd _ _ | .srli rd _ _ | .lb rd _ _ | .lw rd _ _ | .ld rd _ _ | .jal rd _ => some rd
  | .jalr _ _ _ => some 1
  | .sb _ _ _ | .sw _ _ _ | .sd _ _ _ | .beq _ _ _ | .bne _ _ _ | .blt _ _ _ | .bge _ _ _ => none

/-- The memory access of an instruction at a state, if it has one: kind, effective address, width (20_memory.md R58, R59). -/
def accessOf (s : State) : Instr → Option (AccessKind × Word × Nat)
  | .lb _ rs1 imm => some (.load, effAddr s rs1 imm, 1)
  | .lw _ rs1 imm => some (.load, effAddr s rs1 imm, 4)
  | .ld _ rs1 imm => some (.load, effAddr s rs1 imm, 8)
  | .sb _ rs1 imm => some (.store, effAddr s rs1 imm, 1)
  | .sw _ rs1 imm => some (.store, effAddr s rs1 imm, 4)
  | .sd _ rs1 imm => some (.store, effAddr s rs1 imm, 8)
  | .add _ _ _ | .sub _ _ _ | .mul _ _ _ | .and _ _ _ | .sll _ _ _ | .srl _ _ _ | .sra _ _ _
  | .addRw _ _ _ | .subRw _ _ _ | .mulRw _ _ _ | .andRw _ _ _ | .sllw _ _ _ | .srlRw _ _ _ | .sraw _ _ _
  | .addi _ _ _ | .srli _ _ _ | .beq _ _ _ | .bne _ _ _ | .blt _ _ _ | .bge _ _ _ | .jal _ _ | .jalr _ _ _ => none

/-- The category R30 counts an instruction under, at a state; a branch's depends on whether it is taken. -/
def categoryOf (s : State) : Instr → Category
  | .add _ _ _ | .sub _ _ _ | .mul _ _ _ | .and _ _ _ | .sll _ _ _ | .srl _ _ _ | .sra _ _ _
  | .addRw _ _ _ | .subRw _ _ _ | .mulRw _ _ _ | .andRw _ _ _ | .sllw _ _ _ | .srlRw _ _ _ | .sraw _ _ _
  | .addi _ _ _ | .srli _ _ _ => .ir
  | .lb _ _ _ | .lw _ _ _ | .ld _ _ _ => .load
  | .sb _ _ _ | .sw _ _ _ | .sd _ _ _ => .store
  | .jal _ _ | .jalr _ _ _ => .jump
  | .beq rs1 rs2 _ => if s.readReg rs1 = s.readReg rs2 then .branchTaken else .branchNotTaken
  | .bne rs1 rs2 _ => if s.readReg rs1 = s.readReg rs2 then .branchNotTaken else .branchTaken
  | .blt rs1 rs2 _ => if (s.readReg rs1).toInt < (s.readReg rs2).toInt then .branchTaken else .branchNotTaken
  | .bge rs1 rs2 _ => if (s.readReg rs1).toInt < (s.readReg rs2).toInt then .branchNotTaken else .branchTaken

/-- The counter of a category. -/
def Counters.get (c : Counters) : Category → Word
  | .ir => c.ir_count
  | .load => c.ld_count
  | .store => c.st_count
  | .jump => c.j_count
  | .branchTaken => c.b_taken
  | .branchNotTaken => c.b_not_taken

/-- Running, not at the sentinel, aligned, and the word `w` is served at `pc` with no byte of it stored to: what the step
needs to run `w` (40_dispatch.md R120). -/
def FetchesWord (s : State) (w : IWord) : Prop :=
  s.status = .running ∧ s.pc ≠ s.platform.stopSentinel ∧ s.pc.toNat % 4 = 0
    ∧ iFetch s.code s.pc.toNat = some w ∧ ∀ k, k < 4 → s.pc.toNat + k ∉ s.stored

end Sys2Proof.Machine
end

