-- ==== Sys2Proof/Certificates/Slice0/Obligations.lean ====
section
/-! DEFINITION. The statements for the provers. Each docstring names the rule of spec/ it formalises; OBLIGATIONS.json lists
them. The spec's own decisions (92_eei_decisions.md) that a rule rests on are named where they matter. -/

open Sys2Proof Sys2Proof.Machine

/-! ### Reset and the host interface -/

/-- 70_reset_and_hazards.md R261 and R263 (register numbers: decision D2, log 10; that the bytes stored to are forgotten:
log 7): whatever the state, `init` seeds the six registers, zeroes the others, the stack and the counters, sets `pc` and
Running, and leaves every byte outside the stack, the instruction source and the parameters alone. -/
def Obligations.HostInitGivesResetState : Prop :=
  ∀ (s : State) (target a0 a1 a2 a3 : Word),
    let t := s.hostInit target a0 a1 a2 a3
    t.pc = target ∧ t.ctr = Counters.zero ∧ t.status = .running ∧ t.stored = []
      ∧ t.code = s.code ∧ t.platform = s.platform
      ∧ t.readReg 1 = s.platform.stopSentinel
      ∧ (t.readReg 2).toNat = (s.platform.stackBase.toNat + s.platform.stackSize) % 2 ^ 64
      ∧ t.readReg 10 = a0 ∧ t.readReg 11 = a1 ∧ t.readReg 12 = a2 ∧ t.readReg 13 = a3
      ∧ (∀ r : RegIdx, r ≠ 1 → r ≠ 2 → r ≠ 10 → r ≠ 11 → r ≠ 12 → r ≠ 13 → t.readReg r = 0)
      ∧ (∀ a, inStack s.platform a = true → readByte t.mem a = 0)
      ∧ (∀ a, inStack s.platform a = false → readByte t.mem a = readByte s.mem a)

/-- `State.reset` is what the host's load and `init` give on the example platform of R264 with entry 0x1000, no image, an
empty instruction source and arguments 0: the model's choice of parameters (log 2, log 3), the spec's procedure. -/
def Obligations.ResetIsHostInitOfExamplePlatform : Prop :=
  ∀ s : State, (s.hostLoad Config.resetPlatform []).hostInit 0x1000#64 0 0 0 0 = State.reset

/-- 20_memory.md R53, 70_reset_and_hazards.md R263, R265: on a well-formed platform the host's load gives every byte of every
image region its initial value (0 where the region lists none: log 5) and every other byte 0, and `init` after it leaves
all of them so. -/
def Obligations.LoadedImageIsRead : Prop :=
  ∀ (s : State) (p : Platform) (code : CodeStore) (target a0 a1 a2 a3 : Word), p.wellFormed = true →
    let t := s.hostLoad p code
    let u := t.hostInit target a0 a1 a2 a3
    (∀ r ∈ p.image, ∀ k, k < r.size →
        readByte t.mem (r.base.toNat + k) = r.init.getD k 0 ∧ readByte u.mem (r.base.toNat + k) = r.init.getD k 0)
      ∧ (∀ a, inImage p a = false → readByte t.mem a = 0 ∧ readByte u.mem a = 0)
      ∧ t.code = code ∧ t.platform = p

/-- 10_state.md R39 (c), 60_exceptions.md R226, 70_reset_and_hazards.md R268 (decisions D15, D26): nothing is read out of a
Running engine; a Stopped one gives `x[10]` and the counters; two Faulted ones with one record cannot be told apart,
whatever their registers, memory and counters hold. -/
def Obligations.ReadOutShowsOnlyResultOrRecord : Prop :=
  (∀ s : State, s.status = .running → readOut s = none)
    ∧ (∀ s : State, s.status = .stopped → readOut s = some (.result (s.readReg 10) s.ctr))
    ∧ (∀ (s t : State) (f : Fault), s.status = .faulted f → t.status = .faulted f →
        readOut s = some (.record f) ∧ readOut s = readOut t)

/-- 10_state.md R39 (b), 40_dispatch.md R129 (fuel: log 18): once `emulate` has answered a state that is no longer Running,
more fuel answers that same state, so a run has one end. Where `s` itself is not Running this is the model's choice
(log 21; 70_reset_and_hazards.md R269 does not define it). -/
def Obligations.EmulateEndsOnce : Prop :=
  ∀ (n m : Nat) (s t : State), n ≤ m → emulate n s = .next t → t.status ≠ .running → emulate m s = .next t

/-! ### The step -/

/-- 40_dispatch.md R121: a step that begins at the sentinel makes the engine Stopped and changes nothing else, misaligned or
unserved though the sentinel may be (R231). -/
def Obligations.StepAtSentinelStops : Prop :=
  ∀ s : State, s.status = .running → s.pc = s.platform.stopSentinel → step s = .next { s with status := .stopped }

/-- 40_dispatch.md R121: the sentinel is the only way to Stopped; no instruction and no fault leads there. -/
def Obligations.OnlyTheSentinelStops : Prop :=
  ∀ s t : State, step s = .next t → t.status = .stopped →
    s.pc = s.platform.stopSentinel ∧ t = { s with status := .stopped }

/-- 40_dispatch.md R122, 60_exceptions.md R223 (decision D8, log 16): off the sentinel and not a multiple of 4, the step raises
FetchMisaligned(pc), served or not. -/
def Obligations.MisalignedFetchFaults : Prop :=
  ∀ s : State, s.status = .running → s.pc ≠ s.platform.stopSentinel → s.pc.toNat % 4 ≠ 0 →
    ∃ t, step s = .next t ∧ t.status = .faulted (.fetchMisaligned s.pc)

/-- 40_dispatch.md R123, 60_exceptions.md R224 (decision D9, log 16): aligned, off the sentinel and not served, the step raises
FetchFault(pc). -/
def Obligations.UnservedFetchFaults : Prop :=
  ∀ s : State, s.status = .running → s.pc ≠ s.platform.stopSentinel → s.pc.toNat % 4 = 0 →
    iFetch s.code s.pc.toNat = none → ∃ t, step s = .next t ∧ t.status = .faulted (.fetchFault s.pc)

/-- 60_exceptions.md R221, R225 (decision D16): a fetched word that selects no row makes the engine Faulted with
UnsupportedInstruction and the field the decoder names. -/
def Obligations.UnsupportedWordFaults : Prop :=
  ∀ (s : State) (w : IWord) (f : UnsupportedField), FetchesWord s w → decode w = .error f →
    ∃ t, step s = .next t ∧ t.status = .faulted (.unsupportedInstruction f)

/-- 40_dispatch.md R120: when the fetched word decodes to an instruction, the step is exactly that instruction's effect at
this state; the loop itself does no `pc` arithmetic (R26). -/
def Obligations.StepRunsDecodedInstruction : Prop :=
  ∀ (s : State) (w : IWord) (i : Instr), FetchesWord s w → decode w = .ok i → step s = exec i s

/-- 20_memory.md R66, 70_reset_and_hazards.md R276 (decision D18, log 7): after a store has completed, a fetch of a word with
a byte it wrote is refused, as long as nothing else but `pc` and the instruction source differs. -/
def Obligations.FetchOfStoredByteIsRefused : Prop :=
  ∀ (i : Instr) (s t : State) (addr : Word) (n : Nat) (target : Word) (c : CodeStore) (w : IWord),
    accessOf s i = some (.store, addr, n) → s.status = .running → exec i s = .next t → t.status = .running →
    target ≠ s.platform.stopSentinel → target.toNat % 4 = 0 → iFetch c target.toNat = some w →
    target.toNat < addr.toNat + n → addr.toNat < target.toNat + 4 →
    step { t with pc := target, code := c } = .refused .fetchOfStoredByte

/-- 10_state.md R32, 60_exceptions.md R233 (decision D15, log 9): no step goes on from a terminal status; the step of a Faulted
engine hands out its record. -/
def Obligations.TerminalStatusesHaveNoNextState : Prop :=
  ∀ s : State, s.status ≠ .running →
    (∀ t, step s ≠ .next t) ∧ (s.status = .stopped → step s = .refused .stepFromStopped)
      ∧ ∀ f, s.status = .faulted f → step s = .fault f

/-- 20_memory.md R54: the byte at the lowest address is `w[7:0]`, so the opcode is in the byte at `pc`. -/
def Obligations.FetchIsLittleEndian : Prop :=
  ∀ (c : CodeStore) (a : Nat) (b0 b1 b2 b3 : Byte),
    codeByte c a = some b0 → codeByte c (a + 1) = some b1 → codeByte c (a + 2) = some b2 → codeByte c (a + 3) = some b3 →
    ∃ w, iFetch c a = some w ∧ w = (b3 ++ b2 ++ b1 ++ b0 : BitVec 32) ∧ opcodeOf w = b0.setWidth 7

/-- Log 4: the state in which a word has been placed runs exactly that word at its next step. -/
def Obligations.PlacedWordIsRun : Prop :=
  ∀ (s : State) (w : IWord) (i : Instr), cellsRising s.code = true → decode w = .ok i →
    step (s.withFetchWord 32 w.toNat) = exec i (s.withFetchWord 32 w.toNat)

/-! ### Encodings -/

/-- Every well-formed instruction of R100 decodes back from its own word, every operand at every value. -/
def Obligations.DecodeOfEncode : Prop := ∀ i : Instr, i.wellFormed = true → decode (encode i) = .ok i

/-- Every word that decodes is the word of its instruction, but for JALR's unexamined bits 14 to 12 (R105, decision D14). -/
def Obligations.EncodeOfDecode : Prop :=
  ∀ (w : IWord) (i : Instr), decode w = .ok i →
    i.wellFormed = true ∧ encode i = if opcodeOf w = opcJalr then w &&& 0xFFFF8FFF#32 else w

/-- 30_encoding.md R100, R102 (opcode values: decision D1, log 10): a word selects the row of a mnemonic exactly when it
decodes to an instruction of that mnemonic, and it decodes at all exactly when it selects one row and no other. -/
def Obligations.DecodeFollowsOpcodeTable : Prop :=
  (∀ (w : IWord) (name : String) (pattern mask : IWord), (name, pattern, mask) ∈ opcodeTable →
      (w &&& mask = pattern ↔ ∃ i, decode w = .ok i ∧ i.mnemonic = name))
    ∧ ∀ w : IWord, (∃ i, decode w = .ok i) ↔ (opcodeTable.filter (fun r => selects w r.2.2 r.2.1)).length = 1

/-- 30_encoding.md R103, 60_exceptions.md R221 (field names: decision D16): which words are unsupported, unit by unit, and the
field and raw value each is reported with. -/
def Obligations.UnsupportedWordsByUnit : Prop :=
  ∀ w : IWord,
    let op := w.toNat % 2 ^ 7
    let f3 := (w >>> 12).setWidth 3
    let f7 := (w >>> 25).setWidth 7
    (op ∉ [0x33, 0x3B, 0x13, 0x03, 0x23, 0x63, 0x6F, 0x67] → decode w = .error (.opcode (w.setWidth 7)))
      ∧ (op ∈ [0x33, 0x3B] →
          (f3.toNat, f7.toNat) ∉ [(0, 0), (0, 32), (0, 1), (7, 0), (1, 0), (5, 0), (5, 32)] →
          decode w = .error (.functPair f3 f7))
      ∧ (op = 0x13 → f3.toNat ∉ [0, 5] → decode w = .error (.funct3 f3))
      ∧ (op = 0x13 → f3.toNat = 5 → f7.toNat ≠ 0 → decode w = .error (.funct7 f7))
      ∧ (op ∈ [0x03, 0x23] → f3.toNat ∉ [0, 2, 3] → decode w = .error (.funct3 f3))
      ∧ (op = 0x63 → f3.toNat ∉ [0, 1, 4, 5] → decode w = .error (.funct3 f3))
      ∧ (op ∈ [0x6F, 0x67] → ∃ i, decode w = .ok i)

/-- Words of the spec's examples, one or more of every unit (R143, R154, R171, R172, R182, R193, R201, R202, R210, R215). -/
def Obligations.ExampleWordsDecode : Prop :=
  decode 0x007302B3#32 = .ok (.add 5 6 7) ∧ decode 0x407352BB#32 = .ok (.sraw 5 6 7)
    ∧ decode 0xFFF30293#32 = .ok (.addi 5 6 (-1)) ∧ decode 0x01F35293#32 = .ok (.srli 5 6 31)
    ∧ decode 0xFFC32283#32 = .ok (.lw 5 6 (-4)) ∧ decode 0xFE513C23#32 = .ok (.sd 5 2 (-8))
    ∧ decode 0xFE731C63#32 = .ok (.bne 6 7 (-8)) ∧ decode 0x001002EF#32 = .ok (.jal 5 2048)
    ∧ decode 0xFFF7F06F#32 = .ok (.jal 0 (-524290)) ∧ decode 0x000322E7#32 = .ok (.jalr 5 6 0)

/-- 30_encoding.md R92, 45_branch.md R206 (what a standard assembler emits is the spec's general knowledge): a branch word in
the standard B layout keeps its offset here when it goes forward by less than 2048, and gains 1 when it goes back by at
most 2048. -/
def Obligations.StandardBranchWordOffset : Prop :=
  ∀ (off : BitVec 13) (rs2 rs1 : BitVec 5) (f3 : BitVec 3), off.getLsbD 0 = false →
    let w : IWord := off.extractLsb' 12 1 ++ off.extractLsb' 5 6 ++ rs2 ++ rs1 ++ f3 ++ off.extractLsb' 1 4
      ++ off.extractLsb' 11 1 ++ 0b1100011#7
    (0 ≤ off.toInt → off.toInt < 2048 → (immSOf w).toInt = off.toInt)
      ∧ (off.toInt < 0 → -2048 ≤ off.toInt → (immSOf w).toInt = off.toInt + 1)

/-! ### R-type -/

/-- 41_r_type.md R143 and R150: ADD and ADD.RW add modulo 2^64. -/
def Obligations.AddIsSumModulo : Prop :=
  RowDecodesTo 0x00000033#32 0xFE00707F#32 (fun w => .add (rdOf w) (rs1Of w) (rs2Of w))
    ∧ RowDecodesTo 0x0000003B#32 0xFE00707F#32 (fun w => .addRw (rdOf w) (rs1Of w) (rs2Of w))
    ∧ ∀ (rd rs1 rs2 : RegIdx) (s : State),
        let P := fun v : Word => v.toNat = ((s.readReg rs1).toNat + (s.readReg rs2).toNat) % 2 ^ 64
        ComputesIR (.add rd rs1 rs2) rd P s ∧ ComputesIR (.addRw rd rs1 rs2) rd P s

/-- 41_r_type.md R144 and R151: SUB and SUB.RW subtract modulo 2^64. -/
def Obligations.SubIsDifferenceModulo : Prop :=
  RowDecodesTo 0x40000033#32 0xFE00707F#32 (fun w => .sub (rdOf w) (rs1Of w) (rs2Of w))
    ∧ RowDecodesTo 0x4000003B#32 0xFE00707F#32 (fun w => .subRw (rdOf w) (rs1Of w) (rs2Of w))
    ∧ ∀ (rd rs1 rs2 : RegIdx) (s : State),
        let P := fun v : Word => (v.toNat : Int) = (((s.readReg rs1).toNat : Int) - (s.readReg rs2).toNat) % 2 ^ 64
        ComputesIR (.sub rd rs1 rs2) rd P s ∧ ComputesIR (.subRw rd rs1 rs2) rd P s

/-- 41_r_type.md R145 and R152: MUL and MUL.RW give the low 64 bits of the product, read signed or unsigned. -/
def Obligations.MulIsLowHalfOfProduct : Prop :=
  RowDecodesTo 0x02000033#32 0xFE00707F#32 (fun w => .mul (rdOf w) (rs1Of w) (rs2Of w))
    ∧ RowDecodesTo 0x0200003B#32 0xFE00707F#32 (fun w => .mulRw (rdOf w) (rs1Of w) (rs2Of w))
    ∧ ∀ (rd rs1 rs2 : RegIdx) (s : State),
        let P := fun v : Word => v.toNat = ((s.readReg rs1).toNat * (s.readReg rs2).toNat) % 2 ^ 64
          ∧ (v.toNat : Int) = ((s.readReg rs1).toInt * (s.readReg rs2).toInt) % 2 ^ 64
        ComputesIR (.mul rd rs1 rs2) rd P s ∧ ComputesIR (.mulRw rd rs1 rs2) rd P s

/-- 41_r_type.md R146 and R153: AND and AND.RW, bit by bit. -/
def Obligations.AndIsBitwise : Prop :=
  RowDecodesTo 0x00007033#32 0xFE00707F#32 (fun w => .and (rdOf w) (rs1Of w) (rs2Of w))
    ∧ RowDecodesTo 0x0000703B#32 0xFE00707F#32 (fun w => .andRw (rdOf w) (rs1Of w) (rs2Of w))
    ∧ ∀ (rd rs1 rs2 : RegIdx) (s : State),
        let P := fun v : Word => ∀ k, v.getLsbD k = ((s.readReg rs1).getLsbD k && (s.readReg rs2).getLsbD k)
        ComputesIR (.and rd rs1 rs2) rd P s ∧ ComputesIR (.andRw rd rs1 rs2) rd P s

/-- 41_r_type.md R147 with R142 (amount modulo 64: decision D11, log 11): SLL multiplies by a power of two and drops what
passes bit 63. -/
def Obligations.SllIsProductByPower : Prop :=
  RowDecodesTo 0x00001033#32 0xFE00707F#32 (fun w => .sll (rdOf w) (rs1Of w) (rs2Of w))
    ∧ ∀ (rd rs1 rs2 : RegIdx) (s : State),
        ComputesIR (.sll rd rs1 rs2) rd
          (fun v => v.toNat = ((s.readReg rs1).toNat * 2 ^ ((s.readReg rs2).toNat % 64)) % 2 ^ 64) s

/-- 41_r_type.md R148 and R155 with R142 (D11, log 11): SRL and SRL.RW divide the unsigned value by a power of two. -/
def Obligations.SrlIsUnsignedQuotient : Prop :=
  RowDecodesTo 0x00005033#32 0xFE00707F#32 (fun w => .srl (rdOf w) (rs1Of w) (rs2Of w))
    ∧ RowDecodesTo 0x0000503B#32 0xFE00707F#32 (fun w => .srlRw (rdOf w) (rs1Of w) (rs2Of w))
    ∧ ∀ (rd rs1 rs2 : RegIdx) (s : State),
        let P := fun v : Word => v.toNat = (s.readReg rs1).toNat / 2 ^ ((s.readReg rs2).toNat % 64)
        ComputesIR (.srl rd rs1 rs2) rd P s ∧ ComputesIR (.srlRw rd rs1 rs2) rd P s

/-- 41_r_type.md R149 with R142 (D11, log 11): SRA divides the signed value by a power of two, rounding down. -/
def Obligations.SraIsSignedFloorQuotient : Prop :=
  RowDecodesTo 0x40005033#32 0xFE00707F#32 (fun w => .sra (rdOf w) (rs1Of w) (rs2Of w))
    ∧ ∀ (rd rs1 rs2 : RegIdx) (s : State),
        ComputesIR (.sra rd rs1 rs2) rd
          (fun v => v.toInt = (s.readReg rs1).toInt.fdiv (2 ^ ((s.readReg rs2).toNat % 64))) s

/-- 41_r_type.md R154 with R142 (D11, D12, log 11): SLLW shifts the low 32 bits within 32 bits by an amount modulo 32 and
sign-extends. -/
def Obligations.SllwIsThirtyTwoBitSigned : Prop :=
  RowDecodesTo 0x0000103B#32 0xFE00707F#32 (fun w => .sllw (rdOf w) (rs1Of w) (rs2Of w))
    ∧ ∀ (rd rs1 rs2 : RegIdx) (s : State),
        ComputesIR (.sllw rd rs1 rs2) rd
          (fun v => v.toInt = (((s.readReg rs1).toNat : Int) * 2 ^ ((s.readReg rs2).toNat % 32)).bmod (2 ^ 32)) s

/-- 41_r_type.md R156 with R142 (D11, D12, log 11): SRAW reads the low 32 bits as a signed number, divides it by a power of
two rounding down, and sign-extends. -/
def Obligations.SrawIsThirtyTwoBitSigned : Prop :=
  RowDecodesTo 0x4000503B#32 0xFE00707F#32 (fun w => .sraw (rdOf w) (rs1Of w) (rs2Of w))
    ∧ ∀ (rd rs1 rs2 : RegIdx) (s : State),
        ComputesIR (.sraw rd rs1 rs2) rd
          (fun v => v.toInt = (((s.readReg rs1).toNat : Int).bmod (2 ^ 32)).fdiv (2 ^ ((s.readReg rs2).toNat % 32))) s

/-! ### I-arithmetic -/

/-- 42_i_arith.md R171 (wrap: decision D10, log 11): ADDI adds the signed immediate modulo 2^64. -/
def Obligations.AddiAddsSignedImmediate : Prop :=
  RowDecodesTo 0x00000013#32 0x0000707F#32 (fun w => .addi (rdOf w) (rs1Of w) (w.extractLsb' 20 12))
    ∧ ∀ (rd rs1 : RegIdx) (imm : BitVec 12) (s : State),
        ComputesIR (.addi rd rs1 imm) rd
          (fun v => (v.toNat : Int) = (((s.readReg rs1).toNat : Int) + imm.toInt) % 2 ^ 64) s

/-- 42_i_arith.md R172: SRLI divides the unsigned 64-bit value by 2 to the 5-bit amount. -/
def Obligations.SrliIsUnsignedQuotient : Prop :=
  RowDecodesTo 0x00005013#32 0xFE00707F#32 (fun w => .srli (rdOf w) (rs1Of w) (w.extractLsb' 20 5))
    ∧ ∀ (rd rs1 : RegIdx) (shamt : BitVec 5) (s : State),
        ComputesIR (.srli rd rs1 shamt) rd (fun v => v.toNat = (s.readReg rs1).toNat / 2 ^ shamt.toNat) s

/-! ### Loads -/

/-- 43_load.md R181: LB reads one byte and zero-extends it, or raises MemoryFault(load, addr, 1). -/
def Obligations.LbLoadsByteZeroExtended : Prop :=
  RowDecodesTo 0x00000003#32 0x0000707F#32 (fun w => .lb (rdOf w) (rs1Of w) (w.extractLsb' 20 12))
    ∧ ∀ (rd rs1 : RegIdx) (imm : BitVec 12) (s : State),
        let addr := s.readReg rs1 + imm.signExtend 64
        LoadsFrom (.lb rd rs1 imm) rd addr 1 (BitVec.ofNat 64 (byteAt s addr 0).toNat) s

/-- 43_load.md R182: LW reads four bytes, the lowest address lowest, and zero-extends, or raises MemoryFault(load, addr, 4). -/
def Obligations.LwLoadsWordZeroExtended : Prop :=
  RowDecodesTo 0x00002003#32 0x0000707F#32 (fun w => .lw (rdOf w) (rs1Of w) (w.extractLsb' 20 12))
    ∧ ∀ (rd rs1 : RegIdx) (imm : BitVec 12) (s : State),
        let addr := s.readReg rs1 + imm.signExtend 64
        LoadsFrom (.lw rd rs1 imm) rd addr 4
          (0#32 ++ byteAt s addr 3 ++ byteAt s addr 2 ++ byteAt s addr 1 ++ byteAt s addr 0 : BitVec 64) s

/-- 43_load.md R183: LD reads eight bytes, the lowest address lowest, or raises MemoryFault(load, addr, 8). -/
def Obligations.LdLoadsDoubleword : Prop :=
  RowDecodesTo 0x00003003#32 0x0000707F#32 (fun w => .ld (rdOf w) (rs1Of w) (w.extractLsb' 20 12))
    ∧ ∀ (rd rs1 : RegIdx) (imm : BitVec 12) (s : State),
        let addr := s.readReg rs1 + imm.signExtend 64
        LoadsFrom (.ld rd rs1 imm) rd addr 8
          (byteAt s addr 7 ++ byteAt s addr 6 ++ byteAt s addr 5 ++ byteAt s addr 4
            ++ byteAt s addr 3 ++ byteAt s addr 2 ++ byteAt s addr 1 ++ byteAt s addr 0 : BitVec 64) s

/-! ### Stores -/

/-- 44_store.md R191: SB stores the low byte of `x[rs2]`, or raises MemoryFault(store, addr, 1). -/
def Obligations.SbStoresLowByte : Prop :=
  RowDecodesTo 0x00000023#32 0x0000707F#32
      (fun w => .sb (rs2Of w) (rs1Of w) (w.extractLsb' 25 7 ++ w.extractLsb' 7 5 : BitVec 12))
    ∧ ∀ (rs2 rs1 : RegIdx) (imm : BitVec 12) (s : State), s.Inv →
        StoresTo (.sb rs2 rs1 imm) (s.readReg rs1 + imm.signExtend 64) 1 (s.readReg rs2) s

/-- 44_store.md R192: SW stores the low four bytes of `x[rs2]`, the lowest at the lowest address, or raises
MemoryFault(store, addr, 4). -/
def Obligations.SwStoresLowWord : Prop :=
  RowDecodesTo 0x00002023#32 0x0000707F#32
      (fun w => .sw (rs2Of w) (rs1Of w) (w.extractLsb' 25 7 ++ w.extractLsb' 7 5 : BitVec 12))
    ∧ ∀ (rs2 rs1 : RegIdx) (imm : BitVec 12) (s : State), s.Inv →
        StoresTo (.sw rs2 rs1 imm) (s.readReg rs1 + imm.signExtend 64) 4 (s.readReg rs2) s

/-- 44_store.md R193: SD stores all eight bytes of `x[rs2]`, the lowest at the lowest address, or raises
MemoryFault(store, addr, 8). -/
def Obligations.SdStoresDoubleword : Prop :=
  RowDecodesTo 0x00003023#32 0x0000707F#32
      (fun w => .sd (rs2Of w) (rs1Of w) (w.extractLsb' 25 7 ++ w.extractLsb' 7 5 : BitVec 12))
    ∧ ∀ (rs2 rs1 : RegIdx) (imm : BitVec 12) (s : State), s.Inv →
        StoresTo (.sd rs2 rs1 imm) (s.readReg rs1 + imm.signExtend 64) 8 (s.readReg rs2) s

/-- 20_memory.md R60, R65 and the property T6 of 95_test_vectors.md: a load right after a store of its own width at its own
address gives the bytes stored, zero-extended (data byte order: decision D6, log 12). -/
def Obligations.StoreThenLoadGivesBack : Prop :=
  ∀ (rs2 rs1 rd : RegIdx) (imm : BitVec 12) (s : State), s.Inv → rd ≠ 0 →
    let addr := s.readReg rs1 + imm.signExtend 64
    let v := s.readReg rs2
    (BytesValid s addr 8 → ∃ t u, exec (.sd rs2 rs1 imm) s = .next t ∧ exec (.ld rd rs1 imm) t = .next u
        ∧ u.status = s.status ∧ u.readReg rd = v)
      ∧ (BytesValid s addr 4 → ∃ t u, exec (.sw rs2 rs1 imm) s = .next t ∧ exec (.lw rd rs1 imm) t = .next u
        ∧ u.status = s.status ∧ (u.readReg rd).toNat = v.toNat % 2 ^ 32)
      ∧ (BytesValid s addr 1 → ∃ t u, exec (.sb rs2 rs1 imm) s = .next t ∧ exec (.lb rd rs1 imm) t = .next u
        ∧ u.status = s.status ∧ (u.readReg rd).toNat = v.toNat % 2 ^ 8)

/-! ### Control transfer -/

/-- 45_branch.md R201: BEQ branches when the two registers are equal in all 64 bits. -/
def Obligations.BeqBranchesOnEqual : Prop :=
  RowDecodesTo 0x00000063#32 0x0000707F#32
      (fun w => .beq (rs1Of w) (rs2Of w) (w.extractLsb' 25 7 ++ w.extractLsb' 7 5 : BitVec 12))
    ∧ ∀ (rs1 rs2 : RegIdx) (off : BitVec 12) (s : State),
        BranchesOn (.beq rs1 rs2 off) (s.readReg rs1 = s.readReg rs2) off s

/-- 45_branch.md R202: BNE branches when the two registers differ. -/
def Obligations.BneBranchesOnUnequal : Prop :=
  RowDecodesTo 0x00001063#32 0x0000707F#32
      (fun w => .bne (rs1Of w) (rs2Of w) (w.extractLsb' 25 7 ++ w.extractLsb' 7 5 : BitVec 12))
    ∧ ∀ (rs1 rs2 : RegIdx) (off : BitVec 12) (s : State),
        BranchesOn (.bne rs1 rs2 off) (s.readReg rs1 ≠ s.readReg rs2) off s

/-- 45_branch.md R203: BLT branches when the first register is less as a signed number. -/
def Obligations.BltBranchesOnSignedLess : Prop :=
  RowDecodesTo 0x00004063#32 0x0000707F#32
      (fun w => .blt (rs1Of w) (rs2Of w) (w.extractLsb' 25 7 ++ w.extractLsb' 7 5 : BitVec 12))
    ∧ ∀ (rs1 rs2 : RegIdx) (off : BitVec 12) (s : State),
        BranchesOn (.blt rs1 rs2 off) ((s.readReg rs1).toInt < (s.readReg rs2).toInt) off s

/-- 45_branch.md R204: BGE branches when the first register is greater or equal as a signed number. -/
def Obligations.BgeBranchesOnSignedGreaterEqual : Prop :=
  RowDecodesTo 0x00005063#32 0x0000707F#32
      (fun w => .bge (rs1Of w) (rs2Of w) (w.extractLsb' 25 7 ++ w.extractLsb' 7 5 : BitVec 12))
    ∧ ∀ (rs1 rs2 : RegIdx) (off : BitVec 12) (s : State),
        BranchesOn (.bge rs1 rs2 off) ((s.readReg rs2).toInt ≤ (s.readReg rs1).toInt) off s

/-- 46_jal.md R210: JAL links into `x[rd]` (nothing written when `rd = 0`) and moves `pc` by the signed 21-bit offset, whose
sign is bit 31 of the word. -/
def Obligations.JalLinksAndJumps : Prop :=
  RowDecodesTo 0x0000006F#32 0x0000007F#32
      (fun w => .jal (rdOf w) (w.extractLsb' 31 1 ++ w.extractLsb' 12 8 ++ w.extractLsb' 20 1 ++ w.extractLsb' 21 10 ++ 0#1 :
        BitVec 21))
    ∧ ∀ (rd : RegIdx) (off : BitVec 21) (s : State),
        ∃ t, exec (.jal rd off) s = .next t ∧ (rd ≠ 0 → t.readReg rd = s.pc + 4#64) ∧ SameRegsBut s t rd
          ∧ t.pc = s.pc + BitVec.ofInt 64 off.toInt
          ∧ t.ctr = { s.ctr with i_count := s.ctr.i_count + 1, j_count := s.ctr.j_count + 1 }
          ∧ SameMemory s t ∧ t.stored = s.stored ∧ SameSetup s t ∧ BadTargetFaultsNext t

/-- 47_jalr.md R215 (read before write: decision D13; funct3 ignored: D14; log 13): JALR jumps to `x[rs1] + imm` with no bit
cleared and, when `rd` is not 0, links into `x[1]`; `x[rd]` itself is not written. -/
def Obligations.JalrLinksIntoRegisterOne : Prop :=
  RowDecodesTo 0x00000067#32 0x0000007F#32 (fun w => .jalr (rdOf w) (rs1Of w) (w.extractLsb' 20 12))
    ∧ ∀ (rd rs1 : RegIdx) (imm : BitVec 12) (s : State),
        ∃ t, exec (.jalr rd rs1 imm) s = .next t
          ∧ t.readReg 1 = (if rd = 0 then s.readReg 1 else s.pc + 4#64) ∧ SameRegsBut s t 1
          ∧ t.pc = s.readReg rs1 + BitVec.ofInt 64 imm.toInt
          ∧ t.ctr = { s.ctr with i_count := s.ctr.i_count + 1, j_count := s.ctr.j_count + 1 }
          ∧ SameMemory s t ∧ t.stored = s.stored ∧ SameSetup s t ∧ BadTargetFaultsNext t

/-- 47_jalr.md R216, R217: RET is the JALR word 0x00008067; with the sentinel in `x[1]` it is executed and counted, and the
step after it stops the engine. -/
def Obligations.ReturnThroughSentinelStops : Prop :=
  ∀ s : State, FetchesWord s 0x00008067#32 → s.readReg 1 = s.platform.stopSentinel →
    ∃ t, step s = .next t ∧ t.status = .running ∧ t.ctr.i_count = s.ctr.i_count + 1 ∧ t.ctr.j_count = s.ctr.j_count + 1
      ∧ SameRegs s t ∧ step t = .next { t with status := .stopped }

/-! ### Rules over all instructions -/

/-- 10_state.md R30: an instruction that completes increments `i_count` and exactly one other counter, that of its category. -/
def Obligations.EachInstructionCountsOneCategory : Prop :=
  ∀ (i : Instr) (s t : State), s.status = .running → exec i s = .next t → t.status = .running →
    t.ctr.i_count = s.ctr.i_count + 1 ∧ t.ctr.get (categoryOf s i) = s.ctr.get (categoryOf s i) + 1
      ∧ ∀ c, c ≠ categoryOf s i → t.ctr.get c = s.ctr.get c

/-- 10_state.md R31 (an inference of the spec's from R30; width: D17, log 15): a step that does not fault keeps the counters'
identity modulo 2^64, and keeps it as natural numbers as long as `i_count` does not wrap. Nothing is said of the counters
of a Faulted state (60_exceptions.md R226). -/
def Obligations.CounterIdentityKept : Prop :=
  ∀ s t : State, step s = .next t → (∀ f, t.status ≠ .faulted f) →
    (s.ctr.balanced = true → t.ctr.balanced = true)
      ∧ (s.ctr.addUp → s.ctr.i_count.toNat + 1 < 2 ^ 64 → t.ctr.addUp)

/-- 20_memory.md R59 and R57: an instruction that completes changes no byte of data memory but those of its own store. -/
def Obligations.OnlyStoresChangeMemory : Prop :=
  ∀ (i : Instr) (s t : State), s.Inv → s.status = .running → exec i s = .next t → t.status = .running →
    (∀ addr n, accessOf s i = some (.store, addr, n) → SameMemoryOutside s t addr.toNat n)
      ∧ ((∀ addr n, accessOf s i ≠ some (.store, addr, n)) → SameMemory s t ∧ t.stored = s.stored)

/-- 10_state.md R24: an instruction that completes changes no register but its destination: `rd`, for JALR `x[1]`, for a
store or a branch none; and `x[0]` reads 0 after it (R21). -/
def Obligations.OnlyDestinationRegisterChanges : Prop :=
  ∀ (i : Instr) (s t : State), s.status = .running → exec i s = .next t → t.status = .running →
    t.readReg 0 = 0 ∧ ∀ r, destOf i ≠ some r → t.readReg r = s.readReg r

/-- 60_exceptions.md R222, R227: the only fault an instruction raises is MemoryFault, by a load or a store, with its own kind,
address and width, exactly when a byte of the access is not valid or the access passes 2^64. -/
def Obligations.InstructionFaultsOnlyOnInvalidAccess : Prop :=
  ∀ (i : Instr) (s : State) (f : Fault), s.status = .running →
    ((∃ t, exec i s = .next t ∧ t.status = .faulted f) ↔
      ∃ kind addr n, accessOf s i = some (kind, addr, n) ∧ f = .memoryFault kind addr n ∧ ¬ BytesValid s addr n)

/-- 60_exceptions.md R235, R227 (no mode, no trap, no instruction withheld): every instruction answers a next state from every
state, and a Running engine's step is refused in no case but the fetch of a stored-to byte (R66, log 7). -/
def Obligations.EveryInstructionAnswersNextState : Prop :=
  (∀ (i : Instr) (s : State), ∃ t, exec i s = .next t)
    ∧ ∀ s : State, s.status = .running →
        (∃ t, step s = .next t) ∨
          (step s = .refused .fetchOfStoredByte ∧ ∃ k, k < 4 ∧ s.pc.toNat + k ∈ s.stored)

/-- 20_memory.md R66, 70_reset_and_hazards.md R263 (decision D18; log 1): no step changes the instruction source or a
parameter. -/
def Obligations.SetupIsFixedForTheRun : Prop :=
  ∀ s t : State, step s = .next t → t.code = s.code ∧ t.platform = s.platform

/-- The invariant of the state (10_state.md R21, R31, 20_memory.md R51): every step keeps it. Its clause on the counters holds
of a state that has not faulted, and claims nothing of one that has (R226). -/
def Obligations.StepKeepsInvariant : Prop := ∀ s t : State, s.Inv → step s = .next t → t.Inv

/-- `State.reset` has the invariant. -/
def Obligations.ResetHasInvariant : Prop := State.reset.Inv

/-- 70_reset_and_hazards.md R260, R263, R265: a state that the host's `init` makes of one that has the invariant has it, and so
has the state that load and `init` make of any state on a well-formed platform, with an instruction source in rising order. -/
def Obligations.InitHasInvariant : Prop :=
  (∀ (s : State) (target a0 a1 a2 a3 : Word), s.Inv → (s.hostInit target a0 a1 a2 a3).Inv)
    ∧ ∀ (s : State) (p : Platform) (code : CodeStore) (target a0 a1 a2 a3 : Word), p.wellFormed = true →
        cellsRising code = true → ((s.hostLoad p code).hostInit target a0 a1 a2 a3).Inv
end

