-- ==== Sys2Proof/Laws/Decode.lean ====
section
/-! SUPPORT. The encoder's formats field by field, what a mask fixes of a word, and the bytes of a value. -/

namespace Sys2Proof

/-! ### Bytes of a value -/

/-- Byte k of the value joined from bytes is byte k. -/
theorem leByte_leJoin {n : Nat} (f : Nat → Byte) {k : Nat} (hk : k < n) : leByte (leJoin n f) k = f k := by
  induction n generalizing f k with
  | zero => omega
  | succ n ih =>
    have hbit : ∀ i, i < 8 → (leJoin (n + 1) f).getLsbD (8 * k + i) = (f k).getLsbD i := by
      intro i hi
      show ((leJoin n (fun k => f (k + 1))) ++ f 0 : BitVec (8 * n + 8)).getLsbD (8 * k + i) = _
      rw [BitVec.getLsbD_append]
      cases k with
      | zero => simp [hi]
      | succ k =>
        have h1 : ¬(8 * (k + 1) + i < 8) := by omega
        have h2 : 8 * (k + 1) + i - 8 = 8 * k + i := by omega
        have h3 := congrArg (fun b : Byte => b.getLsbD i) (ih (fun k => f (k + 1)) (k := k) (by omega))
        simp only [leByte, BitVec.getLsbD_extractLsb', hi, decide_true, Bool.true_and] at h3
        simp only [h1, if_false, h2, h3]
    apply BitVec.eq_of_getLsbD_eq
    intro i hi
    simp only [leByte, BitVec.getLsbD_extractLsb', hi, decide_true, Bool.true_and]
    exact hbit i hi

/-- Two values of n bytes with the same bytes are the same value. -/
theorem eq_of_leByte_eq {n : Nat} {v w : BitVec (8 * n)} (h : ∀ k, k < n → leByte v k = leByte w k) : v = w := by
  apply BitVec.eq_of_getLsbD_eq
  intro i hi
  have h1 := congrArg (fun b : Byte => b.getLsbD (i % 8)) (h (i / 8) (by omega))
  have h2 : i % 8 < 8 := Nat.mod_lt _ (by decide)
  have h3 : 8 * (i / 8) + i % 8 = i := by omega
  simpa only [leByte, BitVec.getLsbD_extractLsb', h2, decide_true, Bool.true_and, h3] using h1

/-- Joining the bytes of a value gives the value. -/
theorem leJoin_leByte {n : Nat} (v : BitVec (8 * n)) : leJoin n (fun k => leByte v k) = v :=
  eq_of_leByte_eq (fun _ hk => leByte_leJoin _ hk)

/-- A word read back from its four bytes is the word. -/
theorem leJoin_wordBytes (w : IWord) : leJoin 4 (fun k => (wordBytes w).getD k 0#8) = w :=
  eq_of_leByte_eq (n := 4) (by
    intro k hk
    rw [leByte_leJoin _ hk]
    obtain rfl | rfl | rfl | rfl : k = 0 ∨ k = 1 ∨ k = 2 ∨ k = 3 := by omega
    all_goals rfl)

/-! ### What a mask fixes -/

/-- If a mask covers a field, a word that selects (pattern, mask) has the pattern's bits there. -/
theorem field_of_selects {w pattern mask : IWord} (lo len : Nat) (h : w &&& mask = pattern)
    (hm : mask.extractLsb' lo len = BitVec.allOnes len) : extractUnsigned w lo len = pattern.extractLsb' lo len := by
  subst h
  simp [extractUnsigned, BitVec.extractLsb'_and, hm]

/-- Two words that agree in a field agree in each of its bits. -/
theorem getLsbD_eq_of_field {w p : IWord} {lo len i : Nat} (h : extractUnsigned w lo len = p.extractLsb' lo len)
    (h1 : lo ≤ i) (h2 : i < lo + len) : w.getLsbD i = p.getLsbD i := by
  have hi : i - lo < len := by omega
  have he : lo + (i - lo) = i := by omega
  have hb := congrArg (fun v => v.getLsbD (i - lo)) h
  simpa only [extractUnsigned, BitVec.getLsbD_extractLsb', hi, decide_true, Bool.true_and, he] using hb

/-- A word with the pattern's opcode, funct3 and funct7 selects the row whose mask covers those three. -/
theorem selects_of_functs {w p : IWord} (hop : opcodeOf w = p.extractLsb' 0 7) (h3 : funct3Of w = p.extractLsb' 12 3)
    (h7 : funct7Of w = p.extractLsb' 25 7) (hp : p &&& 0xFE00707F#32 = p) : selects w 0xFE00707F#32 p = true := by
  rw [selects, decide_eq_true_eq, ← hp]
  apply BitVec.eq_of_getLsbD_eq
  intro i hi
  simp only [BitVec.getLsbD_and]
  by_cases h : i < 7 ∨ (12 ≤ i ∧ i < 15) ∨ 25 ≤ i
  · congr 1
    obtain h | h | h := h
    · exact getLsbD_eq_of_field hop (Nat.zero_le i) (by omega)
    · exact getLsbD_eq_of_field h3 h.1 (by omega)
    · exact getLsbD_eq_of_field h7 h (by omega)
  · have hbit : ∀ j, j < 32 → ¬(j < 7 ∨ (12 ≤ j ∧ j < 15) ∨ 25 ≤ j) → (0xFE00707F#32).getLsbD j = false := by decide
    simp [hbit i hi h]

/-- A word with the pattern's opcode and funct3 selects the row whose mask covers those two. -/
theorem selects_of_funct3 {w p : IWord} (hop : opcodeOf w = p.extractLsb' 0 7) (h3 : funct3Of w = p.extractLsb' 12 3)
    (hp : p &&& 0x0000707F#32 = p) : selects w 0x0000707F#32 p = true := by
  rw [selects, decide_eq_true_eq, ← hp]
  apply BitVec.eq_of_getLsbD_eq
  intro i hi
  simp only [BitVec.getLsbD_and]
  by_cases h : i < 7 ∨ (12 ≤ i ∧ i < 15)
  · congr 1
    obtain h | h := h
    · exact getLsbD_eq_of_field hop (Nat.zero_le i) (by omega)
    · exact getLsbD_eq_of_field h3 h.1 (by omega)
  · have hbit : ∀ j, j < 32 → ¬(j < 7 ∨ (12 ≤ j ∧ j < 15)) → (0x0000707F#32).getLsbD j = false := by decide
    simp [hbit i hi h]

/-- A word with the pattern's opcode selects the row whose mask covers only that. -/
theorem selects_of_opcode {w p : IWord} (hop : opcodeOf w = p.extractLsb' 0 7) (hp : p &&& 0x0000007F#32 = p) :
    selects w 0x0000007F#32 p = true := by
  rw [selects, decide_eq_true_eq, ← hp]
  apply BitVec.eq_of_getLsbD_eq
  intro i hi
  simp only [BitVec.getLsbD_and]
  by_cases h : i < 7
  · congr 1
    exact getLsbD_eq_of_field hop (Nat.zero_le i) (by omega)
  · have hbit : ∀ j, j < 32 → ¬(j < 7) → (0x0000007F#32).getLsbD j = false := by decide
    simp [hbit i hi h]

/-! ### The fields of an encoded word -/

/-- The low part of a concatenation. -/
theorem extract_append_low {n m : Nat} (a : BitVec n) (b : BitVec m) : (a ++ b).extractLsb' 0 m = b := by
  apply BitVec.eq_of_getLsbD_eq
  intro i hi
  simp [BitVec.getLsbD_append, hi]

/-- A part of a concatenation that lies in its high operand. -/
theorem extract_append_high {n m : Nat} (a : BitVec n) (b : BitVec m) (k len : Nat) :
    (a ++ b).extractLsb' (m + k) len = a.extractLsb' k len := by
  apply BitVec.eq_of_getLsbD_eq
  intro i hi
  have h1 : ¬(m + k + i < m) := by omega
  have h2 : m + k + i - m = k + i := by omega
  simp [BitVec.getLsbD_append, hi, h1, h2]

section R
variable (f7 : BitVec 7) (rs2 rs1 : RegIdx) (f3 : BitVec 3) (rd : RegIdx) (opc : BitVec 7)

theorem encodeR_opcode : opcodeOf (encodeR f7 rs2 rs1 f3 rd opc) = opc := extract_append_low _ opc

theorem encodeR_rd : rdOf (encodeR f7 rs2 rs1 f3 rd opc) = rd :=
  congrArg BitVec.toFin ((extract_append_high _ opc 0 5).trans (extract_append_low _ (BitVec.ofFin rd : BitVec 5)))

theorem encodeR_funct3 : funct3Of (encodeR f7 rs2 rs1 f3 rd opc) = f3 :=
  (extract_append_high _ opc 5 3).trans ((extract_append_high _ (BitVec.ofFin rd : BitVec 5) 0 3).trans
    (extract_append_low _ f3))

theorem encodeR_rs1 : rs1Of (encodeR f7 rs2 rs1 f3 rd opc) = rs1 :=
  congrArg BitVec.toFin <|
    (extract_append_high _ opc 8 5).trans ((extract_append_high _ (BitVec.ofFin rd : BitVec 5) 3 5).trans
      ((extract_append_high _ f3 0 5).trans (extract_append_low _ (BitVec.ofFin rs1 : BitVec 5))))

theorem encodeR_rs2 : rs2Of (encodeR f7 rs2 rs1 f3 rd opc) = rs2 :=
  congrArg BitVec.toFin <|
    (extract_append_high _ opc 13 5).trans ((extract_append_high _ (BitVec.ofFin rd : BitVec 5) 8 5).trans
      ((extract_append_high _ f3 5 5).trans ((extract_append_high _ (BitVec.ofFin rs1 : BitVec 5) 0 5).trans
        (extract_append_low _ (BitVec.ofFin rs2 : BitVec 5)))))

theorem encodeR_funct7 : funct7Of (encodeR f7 rs2 rs1 f3 rd opc) = f7 :=
  (extract_append_high _ opc 18 7).trans ((extract_append_high _ (BitVec.ofFin rd : BitVec 5) 13 7).trans
    ((extract_append_high _ f3 10 7).trans ((extract_append_high _ (BitVec.ofFin rs1 : BitVec 5) 5 7).trans
      ((extract_append_high _ (BitVec.ofFin rs2 : BitVec 5) 0 7).trans (BitVec.extractLsb'_eq_self ..)))))

/-- Bit 3 of the word is bit 3 of the opcode (R82). -/
theorem bit3_of_opcode (w : IWord) : extractBit w 3 = (opcodeOf w).getLsbD 3 := by
  simp [extractBit, opcodeOf, extractUnsigned]

end R

section I
variable (imm : BitVec 12) (rs1 : RegIdx) (f3 : BitVec 3) (rd : RegIdx) (opc : BitVec 7)

theorem encodeI_opcode : opcodeOf (encodeI imm rs1 f3 rd opc) = opc := extract_append_low _ opc

theorem encodeI_rd : rdOf (encodeI imm rs1 f3 rd opc) = rd :=
  congrArg BitVec.toFin ((extract_append_high _ opc 0 5).trans (extract_append_low _ (BitVec.ofFin rd : BitVec 5)))

theorem encodeI_funct3 : funct3Of (encodeI imm rs1 f3 rd opc) = f3 :=
  (extract_append_high _ opc 5 3).trans ((extract_append_high _ (BitVec.ofFin rd : BitVec 5) 0 3).trans
    (extract_append_low _ f3))

theorem encodeI_rs1 : rs1Of (encodeI imm rs1 f3 rd opc) = rs1 :=
  congrArg BitVec.toFin <|
    (extract_append_high _ opc 8 5).trans ((extract_append_high _ (BitVec.ofFin rd : BitVec 5) 3 5).trans
      ((extract_append_high _ f3 0 5).trans (extract_append_low _ (BitVec.ofFin rs1 : BitVec 5))))

/-- Any part of the I immediate, by its place in the word. -/
theorem encodeI_immPart (k len : Nat) :
    extractUnsigned (encodeI imm rs1 f3 rd opc) (20 + k) len = imm.extractLsb' k len := by
  have h : 20 + k = 7 + (5 + (3 + (5 + k))) := by omega
  rw [extractUnsigned, h]
  exact (extract_append_high _ opc _ len).trans ((extract_append_high _ (BitVec.ofFin rd : BitVec 5) _ len).trans
    ((extract_append_high _ f3 _ len).trans (extract_append_high imm (BitVec.ofFin rs1 : BitVec 5) k len)))

theorem encodeI_imm : immIOf (encodeI imm rs1 f3 rd opc) = imm :=
  (encodeI_immPart imm rs1 f3 rd opc 0 12).trans (BitVec.extractLsb'_eq_self ..)

end I

section S
variable (imm : BitVec 12) (rs2 rs1 : RegIdx) (f3 : BitVec 3) (opc : BitVec 7)

theorem encodeS_opcode : opcodeOf (encodeS imm rs2 rs1 f3 opc) = opc := extract_append_low _ opc

theorem encodeS_funct3 : funct3Of (encodeS imm rs2 rs1 f3 opc) = f3 :=
  (extract_append_high _ opc 5 3).trans ((extract_append_high _ (imm.extractLsb' 0 5) 0 3).trans
    (extract_append_low _ f3))

theorem encodeS_rs1 : rs1Of (encodeS imm rs2 rs1 f3 opc) = rs1 :=
  congrArg BitVec.toFin <|
    (extract_append_high _ opc 8 5).trans ((extract_append_high _ (imm.extractLsb' 0 5) 3 5).trans
      ((extract_append_high _ f3 0 5).trans (extract_append_low _ (BitVec.ofFin rs1 : BitVec 5))))

theorem encodeS_rs2 : rs2Of (encodeS imm rs2 rs1 f3 opc) = rs2 :=
  congrArg BitVec.toFin <|
    (extract_append_high _ opc 13 5).trans ((extract_append_high _ (imm.extractLsb' 0 5) 8 5).trans
      ((extract_append_high _ f3 5 5).trans ((extract_append_high _ (BitVec.ofFin rs1 : BitVec 5) 0 5).trans
        (extract_append_low _ (BitVec.ofFin rs2 : BitVec 5)))))

/-- Two adjacent parts of a value are one part. -/
theorem append_extract {k n m : Nat} (v : BitVec k) (lo : Nat) :
    v.extractLsb' (lo + m) n ++ v.extractLsb' lo m = v.extractLsb' lo (n + m) := by
  apply BitVec.eq_of_getLsbD_eq
  intro i hi
  rw [BitVec.getLsbD_append]
  by_cases h : i < m
  · have h0 : i < n + m := hi
    simp [h, h0]
  · have h1 : i - m < n := by omega
    have h2 : lo + m + (i - m) = lo + i := by omega
    simp [h, h1, hi, h2]

theorem encodeS_imm : immSOf (encodeS imm rs2 rs1 f3 opc) = imm := by
  have hlow : extractUnsigned (encodeS imm rs2 rs1 f3 opc) 7 5 = imm.extractLsb' 0 5 :=
    (extract_append_high _ opc 0 5).trans (extract_append_low _ (imm.extractLsb' 0 5))
  have hhigh : extractUnsigned (encodeS imm rs2 rs1 f3 opc) 25 7 = imm.extractLsb' 5 7 :=
    (extract_append_high _ opc 18 7).trans ((extract_append_high _ (imm.extractLsb' 0 5) 13 7).trans
      ((extract_append_high _ f3 10 7).trans ((extract_append_high _ (BitVec.ofFin rs1 : BitVec 5) 5 7).trans
        ((extract_append_high _ (BitVec.ofFin rs2 : BitVec 5) 0 7).trans (BitVec.extractLsb'_eq_self ..)))))
  rw [immSOf, hlow, hhigh]
  exact (append_extract (n := 7) (m := 5) imm 0).trans (BitVec.extractLsb'_eq_self ..)

end S

section J
variable (off : BitVec 21) (rd : RegIdx) (opc : BitVec 7)

theorem encodeJ_opcode : opcodeOf (encodeJ off rd opc) = opc := extract_append_low _ opc

theorem encodeJ_rd : rdOf (encodeJ off rd opc) = rd :=
  congrArg BitVec.toFin ((extract_append_high _ opc 0 5).trans (extract_append_low _ (BitVec.ofFin rd : BitVec 5)))

/-- An even offset comes back from its word. -/
theorem encodeJ_off (h : off.getLsbD 0 = false) : offJOf (encodeJ off rd opc) = off := by
  have h12 : extractUnsigned (encodeJ off rd opc) 12 8 = off.extractLsb' 12 8 :=
    (extract_append_high _ opc 5 8).trans ((extract_append_high _ (BitVec.ofFin rd : BitVec 5) 0 8).trans
      (extract_append_low _ (off.extractLsb' 12 8)))
  have h20 : extractUnsigned (encodeJ off rd opc) 20 1 = off.extractLsb' 11 1 :=
    (extract_append_high _ opc 13 1).trans ((extract_append_high _ (BitVec.ofFin rd : BitVec 5) 8 1).trans
      ((extract_append_high _ (off.extractLsb' 12 8) 0 1).trans (extract_append_low _ (off.extractLsb' 11 1))))
  have h21 : extractUnsigned (encodeJ off rd opc) 21 10 = off.extractLsb' 1 10 :=
    (extract_append_high _ opc 14 10).trans ((extract_append_high _ (BitVec.ofFin rd : BitVec 5) 9 10).trans
      ((extract_append_high _ (off.extractLsb' 12 8) 1 10).trans
        ((extract_append_high _ (off.extractLsb' 11 1) 0 10).trans (extract_append_low _ (off.extractLsb' 1 10)))))
  have h31 : extractUnsigned (encodeJ off rd opc) 31 1 = off.extractLsb' 20 1 :=
    (extract_append_high _ opc 24 1).trans ((extract_append_high _ (BitVec.ofFin rd : BitVec 5) 19 1).trans
      ((extract_append_high _ (off.extractLsb' 12 8) 11 1).trans
        ((extract_append_high _ (off.extractLsb' 11 1) 10 1).trans
          ((extract_append_high _ (off.extractLsb' 1 10) 0 1).trans (BitVec.extractLsb'_eq_self ..)))))
  have hlow : off.extractLsb' 0 1 = 0#1 := by
    apply BitVec.eq_of_getLsbD_eq
    intro i hi
    have hi0 : i = 0 := by omega
    subst hi0
    simpa using h
  rw [offJOf, h12, h20, h21, h31, ← hlow]
  have e1 : (off.extractLsb' 20 1 ++ off.extractLsb' 12 8 : BitVec 9) = off.extractLsb' 12 9 :=
    append_extract (n := 1) (m := 8) off 12
  have e2 : (off.extractLsb' 12 9 ++ off.extractLsb' 11 1 : BitVec 10) = off.extractLsb' 11 10 :=
    append_extract (n := 9) (m := 1) off 11
  have e3 : (off.extractLsb' 11 10 ++ off.extractLsb' 1 10 : BitVec 20) = off.extractLsb' 1 20 :=
    append_extract (n := 10) (m := 10) off 1
  have e4 : (off.extractLsb' 1 20 ++ off.extractLsb' 0 1 : BitVec 21) = off.extractLsb' 0 21 :=
    append_extract (n := 20) (m := 1) off 0
  have e5 : off.extractLsb' 0 21 = off := BitVec.extractLsb'_eq_self ..
  refine Eq.trans ?_ e5
  rw [← e4, ← e3, ← e2, ← e1]

end J

/-! ### A word is the encoding of its own fields -/

/-- Every word is the R-format word of its fields. -/
theorem encodeR_fields (w : IWord) :
    encodeR (funct7Of w) (rs2Of w) (rs1Of w) (funct3Of w) (rdOf w) (opcodeOf w) = w := by
  unfold encodeR funct7Of rs2Of rs1Of funct3Of rdOf opcodeOf extractUnsigned
  simp only [BitVec.ofFin_toFin]
  have e1 := append_extract (n := 7) (m := 5) w 20
  have e2 := append_extract (n := 12) (m := 5) w 15
  have e3 := append_extract (n := 17) (m := 3) w 12
  have e4 := append_extract (n := 20) (m := 5) w 7
  have e5 := append_extract (n := 25) (m := 7) w 0
  have e6 : w.extractLsb' 0 32 = w := BitVec.extractLsb'_eq_self ..
  simp only [Nat.reduceAdd] at e1 e2 e3 e4 e5
  refine Eq.trans ?_ e6
  rw [← e5, ← e4, ← e3, ← e2, ← e1]

/-- Every word is the I-format word of its fields. -/
theorem encodeI_fields (w : IWord) : encodeI (immIOf w) (rs1Of w) (funct3Of w) (rdOf w) (opcodeOf w) = w := by
  unfold encodeI immIOf rs1Of funct3Of rdOf opcodeOf extractUnsigned
  simp only [BitVec.ofFin_toFin]
  have e2 := append_extract (n := 12) (m := 5) w 15
  have e3 := append_extract (n := 17) (m := 3) w 12
  have e4 := append_extract (n := 20) (m := 5) w 7
  have e5 := append_extract (n := 25) (m := 7) w 0
  have e6 : w.extractLsb' 0 32 = w := BitVec.extractLsb'_eq_self ..
  simp only [Nat.reduceAdd] at e2 e3 e4 e5
  refine Eq.trans ?_ e6
  rw [← e5, ← e4, ← e3, ← e2]

/-- Every word is the S-format word of its fields. -/
theorem encodeS_fields (w : IWord) : encodeS (immSOf w) (rs2Of w) (rs1Of w) (funct3Of w) (opcodeOf w) = w := by
  have hh : (immSOf w).extractLsb' 5 7 = w.extractLsb' 25 7 :=
    (extract_append_high (w.extractLsb' 25 7) (w.extractLsb' 7 5) 0 7).trans (BitVec.extractLsb'_eq_self ..)
  have hl : (immSOf w).extractLsb' 0 5 = w.extractLsb' 7 5 := extract_append_low _ _
  unfold encodeS
  rw [hh, hl]
  exact encodeR_fields w

/-- The J offset of every word is even. -/
theorem offJOf_even (w : IWord) : (offJOf w).getLsbD 0 = false := by
  have h : (offJOf w).extractLsb' 0 1 = 0#1 := extract_append_low _ (0#1)
  simpa using congrArg (fun v : BitVec 1 => v.getLsbD 0) h

/-- Every word is the J-format word of its fields. -/
theorem encodeJ_fields (w : IWord) : encodeJ (offJOf w) (rdOf w) (opcodeOf w) = w := by
  have h20 : (offJOf w).extractLsb' 20 1 = w.extractLsb' 31 1 :=
    (extract_append_high _ (0#1) 19 1).trans ((extract_append_high _ (extractUnsigned w 21 10) 9 1).trans
      ((extract_append_high _ (extractUnsigned w 20 1) 8 1).trans
        ((extract_append_high _ (extractUnsigned w 12 8) 0 1).trans (BitVec.extractLsb'_eq_self ..))))
  have h1 : (offJOf w).extractLsb' 1 10 = w.extractLsb' 21 10 :=
    (extract_append_high _ (0#1) 0 10).trans (extract_append_low _ (extractUnsigned w 21 10))
  have h11 : (offJOf w).extractLsb' 11 1 = w.extractLsb' 20 1 :=
    (extract_append_high _ (0#1) 10 1).trans ((extract_append_high _ (extractUnsigned w 21 10) 0 1).trans
      (extract_append_low _ (extractUnsigned w 20 1)))
  have h12 : (offJOf w).extractLsb' 12 8 = w.extractLsb' 12 8 :=
    (extract_append_high _ (0#1) 11 8).trans ((extract_append_high _ (extractUnsigned w 21 10) 1 8).trans
      ((extract_append_high _ (extractUnsigned w 20 1) 0 8).trans (extract_append_low _ (extractUnsigned w 12 8))))
  unfold encodeJ
  rw [h20, h1, h11, h12]
  unfold rdOf opcodeOf extractUnsigned
  simp only [BitVec.ofFin_toFin]
  have e1 := append_extract (n := 1) (m := 10) w 21
  have e2 := append_extract (n := 11) (m := 1) w 20
  have e3 := append_extract (n := 12) (m := 8) w 12
  have e4 := append_extract (n := 20) (m := 5) w 7
  have e5 := append_extract (n := 25) (m := 7) w 0
  have e6 : w.extractLsb' 0 32 = w := BitVec.extractLsb'_eq_self ..
  simp only [Nat.reduceAdd] at e1 e2 e3 e4 e5
  refine Eq.trans ?_ e6
  rw [← e5, ← e4, ← e3, ← e2, ← e1]

end Sys2Proof
end

