-- ==== Sys2Proof/Laws/Memory.lean ====
section
/-! SUPPORT. Data memory, the instruction source and the list of stored-to addresses: read after write, and the canonical
forms that every operation keeps. -/

namespace Sys2Proof.Machine

/-! ### Rising lists of cells -/

/-- Every address of the cells is above `a`. -/
def AllAbove (a : Nat) (m : List Host.Cell) : Prop := ∀ c ∈ m, a < c.1

theorem cellsRising_cons (a : Nat) (v : Byte) (m : List Host.Cell) :
    cellsRising ((a, v) :: m) = true ↔ AllAbove a m ∧ cellsRising m = true := by
  induction m generalizing a v with
  | nil => simp [cellsRising, AllAbove]
  | cons c rest ih =>
    obtain ⟨b, w⟩ := c
    simp only [cellsRising, Bool.and_eq_true, decide_eq_true_eq]
    constructor
    · rintro ⟨hab, h⟩
      refine ⟨?_, h⟩
      intro c hc
      rcases List.mem_cons.1 hc with rfl | hc
      · exact hab
      · exact Nat.lt_trans hab (((ih b w).1 h).1 c hc)
    · rintro ⟨hall, h⟩
      exact ⟨hall (b, w) (List.mem_cons_self ..), h⟩

theorem readByte_of_allAbove {a b : Nat} {m : Memory} (h : AllAbove a m) (hb : b ≤ a) : readByte m b = 0 := by
  induction m with
  | nil => rfl
  | cons c rest ih =>
    obtain ⟨d, w⟩ := c
    have hd : a < d := h (d, w) (List.mem_cons_self ..)
    have hne : b ≠ d := by omega
    simp only [readByte, hne, if_false]
    exact ih (fun c hc => h c (List.mem_cons_of_mem _ hc))

/-! ### Data memory -/

theorem Memory.wf_cons (a : Nat) (v : Byte) (m : Memory) :
    Memory.wf ((a, v) :: m) = true ↔ AllAbove a m ∧ v ≠ 0 ∧ Memory.wf m = true := by
  simp only [Memory.wf, Bool.and_eq_true, cellsRising_cons, List.all_cons, decide_eq_true_eq]
  tauto

@[simp] theorem Memory.wf_nil : Memory.wf [] = true := rfl

theorem readByte_consByte {a b : Nat} {v : Byte} {m : Memory} (h : AllAbove a m) :
    readByte (consByte a v m) b = if b = a then v else readByte m b := by
  unfold consByte
  split
  · next hv =>
    split
    · next hb => rw [hb, hv, readByte_of_allAbove h (Nat.le_refl a)]
    · rfl
  · simp [readByte]

theorem consByte_wf {a : Nat} {v : Byte} {m : Memory} (h : AllAbove a m) (hm : Memory.wf m = true) :
    Memory.wf (consByte a v m) = true := by
  unfold consByte
  split
  · exact hm
  · next hv => exact (Memory.wf_cons a v m).2 ⟨h, hv, hm⟩

/-- Cells of a written memory are old cells or the new one. -/
theorem mem_writeByte {m : Memory} {a : Nat} {v : Byte} {c : Host.Cell} (h : c ∈ writeByte m a v) :
    c.1 = a ∨ c ∈ m := by
  have hcons : ∀ {rest : Memory}, c ∈ consByte a v rest → c.1 = a ∨ c ∈ rest := by
    intro rest hc
    unfold consByte at hc
    split at hc
    · exact .inr hc
    · rcases List.mem_cons.1 hc with rfl | hc
      · exact .inl rfl
      · exact .inr hc
  induction m with
  | nil => exact hcons h
  | cons d rest ih =>
    obtain ⟨b, w⟩ := d
    simp only [writeByte] at h
    split at h
    · exact hcons h
    · split at h
      · exact (hcons h).imp_right (List.mem_cons_of_mem _)
      · rcases List.mem_cons.1 h with rfl | hc
        · exact .inr (List.mem_cons_self ..)
        · exact (ih hc).imp_right (List.mem_cons_of_mem _)

theorem writeByte_wf {m : Memory} (a : Nat) (v : Byte) (hm : Memory.wf m = true) :
    Memory.wf (writeByte m a v) = true := by
  induction m with
  | nil => exact consByte_wf (by intro c hc; cases hc) hm
  | cons d rest ih =>
    obtain ⟨b, w⟩ := d
    obtain ⟨hab, hw, hr⟩ := (Memory.wf_cons b w rest).1 hm
    simp only [writeByte]
    split
    · next hlt =>
      refine consByte_wf ?_ hm
      intro c hc
      rcases List.mem_cons.1 hc with rfl | hc
      · exact hlt
      · exact Nat.lt_trans hlt (hab c hc)
    · next hge =>
      split
      · next heq => exact consByte_wf (heq ▸ hab) hr
      · next hne =>
        refine (Memory.wf_cons b w _).2 ⟨?_, hw, ih hr⟩
        intro c hc
        rcases mem_writeByte hc with h | h
        · omega
        · exact hab c h

/-- Read after write of one byte. -/
theorem readByte_writeByte {m : Memory} (a b : Nat) (v : Byte) (hm : Memory.wf m = true) :
    readByte (writeByte m a v) b = if b = a then v else readByte m b := by
  induction m with
  | nil => exact readByte_consByte (by intro c hc; cases hc)
  | cons d rest ih =>
    obtain ⟨e, w⟩ := d
    obtain ⟨hab, -, hr⟩ := (Memory.wf_cons e w rest).1 hm
    simp only [writeByte]
    split
    · next hlt =>
      refine readByte_consByte ?_
      intro c hc
      rcases List.mem_cons.1 hc with rfl | hc
      · exact hlt
      · exact Nat.lt_trans hlt (hab c hc)
    · split
      · next heq =>
        subst heq
        rw [readByte_consByte hab]
        by_cases hb : b = a <;> simp [hb, readByte]
      · next hne =>
        by_cases hb : b = e
        · subst hb
          simp [readByte, Ne.symm hne]
        · simp [readByte, hb, ih hr]

theorem writeBytes_wf {m : Memory} (a n : Nat) (f : Nat → Byte) (hm : Memory.wf m = true) :
    Memory.wf (writeBytes m a n f) = true := by
  induction n generalizing m a f with
  | zero => exact hm
  | succ n ih => exact ih (a + 1) _ (writeByte_wf a (f 0) hm)

/-- Read after write of n bytes: inside the n bytes the byte written, outside what stood there. -/
theorem readByte_writeBytes {m : Memory} (a n b : Nat) (f : Nat → Byte) (hm : Memory.wf m = true) :
    readByte (writeBytes m a n f) b = if a ≤ b ∧ b < a + n then f (b - a) else readByte m b := by
  induction n generalizing m a f with
  | zero =>
    simp [writeBytes]
  | succ n ih =>
    rw [writeBytes, ih (a + 1) _ (writeByte_wf a (f 0) hm), readByte_writeByte a b (f 0) hm]
    by_cases hb : b = a
    · subst hb
      simp
    · by_cases hin : a + 1 ≤ b ∧ b < a + 1 + n
      · have h2 : a ≤ b ∧ b < a + (n + 1) := by omega
        have h3 : b - (a + 1) + 1 = b - a := by omega
        simp only [hin, h2, and_self, if_true, h3]
      · have h2 : ¬(a ≤ b ∧ b < a + (n + 1)) := by omega
        simp only [hin, h2, hb, if_false]

theorem mem_writeBytes {m : Memory} {a n : Nat} {f : Nat → Byte} {c : Host.Cell} (h : c ∈ writeBytes m a n f) :
    (a ≤ c.1 ∧ c.1 < a + n) ∨ c ∈ m := by
  induction n generalizing m a f with
  | zero => exact .inr h
  | succ n ih =>
    rcases ih h with h' | h'
    · exact .inl (by omega)
    · rcases mem_writeByte h' with h'' | h''
      · exact .inl (by omega)
      · exact .inr h''

/-- Dropping cells keeps the canonical form. -/
theorem filter_wf {m : Memory} (p : Host.Cell → Bool) (hm : Memory.wf m = true) : Memory.wf (m.filter p) = true := by
  induction m with
  | nil => rfl
  | cons d rest ih =>
    obtain ⟨b, w⟩ := d
    obtain ⟨hab, hw, hr⟩ := (Memory.wf_cons b w rest).1 hm
    by_cases hp : p (b, w) = true
    · rw [List.filter_cons_of_pos hp]
      exact (Memory.wf_cons b w _).2 ⟨fun c hc => hab c (List.mem_filter.1 hc).1, hw, ih hr⟩
    · rw [List.filter_cons_of_neg hp]
      exact ih hr

/-- Dropping cells by address: an address that is dropped reads 0, another one as before. -/
theorem readByte_filter_addr (m : Memory) (q : Nat → Bool) (a : Nat) :
    readByte (m.filter (fun c => q c.1)) a = if q a = true then readByte m a else 0 := by
  induction m with
  | nil => simp [readByte]
  | cons d rest ih =>
    obtain ⟨b, w⟩ := d
    by_cases hq : q b = true
    · rw [List.filter_cons_of_pos (by simpa using hq)]
      by_cases hab : a = b
      · subst hab; simp [readByte, hq]
      · simp only [readByte, hab, if_false, ih]
    · rw [List.filter_cons_of_neg (by simpa using hq), ih]
      by_cases hab : a = b
      · subst hab; simp [hq]
      · simp [readByte, hab]

/-! ### The instruction source -/

theorem mem_putCodeByte {m : CodeStore} {a : Nat} {v : Byte} {c : Host.Cell} (h : c ∈ putCodeByte m a v) :
    c.1 = a ∨ c ∈ m := by
  induction m with
  | nil => simp only [putCodeByte, List.mem_singleton] at h; exact .inl (h ▸ rfl)
  | cons d rest ih =>
    obtain ⟨b, w⟩ := d
    simp only [putCodeByte] at h
    split at h
    · rcases List.mem_cons.1 h with rfl | h
      · exact .inl rfl
      · exact .inr h
    · split at h
      · rcases List.mem_cons.1 h with rfl | h
        · exact .inl rfl
        · exact .inr (List.mem_cons_of_mem _ h)
      · rcases List.mem_cons.1 h with rfl | h
        · exact .inr (List.mem_cons_self ..)
        · exact (ih h).imp_right (List.mem_cons_of_mem _)

theorem putCodeByte_rising {m : CodeStore} (a : Nat) (v : Byte) (hm : cellsRising m = true) :
    cellsRising (putCodeByte m a v) = true := by
  induction m with
  | nil => rfl
  | cons d rest ih =>
    obtain ⟨b, w⟩ := d
    obtain ⟨hab, hr⟩ := (cellsRising_cons b w rest).1 hm
    simp only [putCodeByte]
    split
    · next hlt =>
      refine (cellsRising_cons a v _).2 ⟨?_, hm⟩
      intro c hc
      rcases List.mem_cons.1 hc with rfl | hc
      · exact hlt
      · exact Nat.lt_trans hlt (hab c hc)
    · split
      · next heq => exact (cellsRising_cons a v _).2 ⟨heq ▸ hab, hr⟩
      · next hge hne =>
        refine (cellsRising_cons b w _).2 ⟨?_, ih hr⟩
        intro c hc
        rcases mem_putCodeByte hc with h | h
        · omega
        · exact hab c h

theorem codeByte_putCodeByte {m : CodeStore} (a b : Nat) (v : Byte) (hm : cellsRising m = true) :
    codeByte (putCodeByte m a v) b = if b = a then some v else codeByte m b := by
  induction m with
  | nil => simp [putCodeByte, codeByte]
  | cons d rest ih =>
    obtain ⟨e, w⟩ := d
    obtain ⟨-, hr⟩ := (cellsRising_cons e w rest).1 hm
    simp only [putCodeByte]
    split
    · simp [codeByte]
    · split
      · next heq =>
        subst heq
        by_cases hb : b = a <;> simp [hb, codeByte]
      · next hne =>
        by_cases hb : b = e
        · subst hb; simp [codeByte, Ne.symm hne]
        · simp [codeByte, hb, ih hr]

theorem putCode_rising {m : CodeStore} (a : Nat) (vs : List Byte) (hm : cellsRising m = true) :
    cellsRising (putCode m a vs) = true := by
  induction vs generalizing m a with
  | nil => exact hm
  | cons v vs ih => exact ih (a + 1) (putCodeByte_rising a v hm)

/-- Installed bytes are served; every other address serves what it served. -/
theorem codeByte_putCode {m : CodeStore} (a b : Nat) (vs : List Byte) (hm : cellsRising m = true) :
    codeByte (putCode m a vs) b = if a ≤ b ∧ b < a + vs.length then vs[b - a]? else codeByte m b := by
  induction vs generalizing m a with
  | nil =>
    have : ¬(a ≤ b ∧ b < a + ([] : List Byte).length) := by simp
    simp only [putCode, this, if_false]
  | cons v vs ih =>
    rw [putCode, ih (a + 1) (putCodeByte_rising a v hm), codeByte_putCodeByte a b v hm]
    by_cases hb : b = a
    · subst hb; simp
    · by_cases hin : a + 1 ≤ b ∧ b < a + 1 + vs.length
      · have h2 : a ≤ b ∧ b < a + (v :: vs).length := by simp only [List.length_cons]; omega
        have h3 : b - a = b - (a + 1) + 1 := by omega
        simp only [hin, h2, and_self, if_true]
        rw [h3, List.getElem?_cons_succ]
      · have h2 : ¬(a ≤ b ∧ b < a + (v :: vs).length) := by simp only [List.length_cons]; omega
        simp only [hin, h2, hb, if_false]

/-! ### The stored-to addresses -/

theorem mem_noteAddr {l : List Nat} {a x : Nat} : x ∈ noteAddr l a ↔ x = a ∨ x ∈ l := by
  induction l with
  | nil => simp [noteAddr]
  | cons b rest ih =>
    simp only [noteAddr]
    split
    · simp
    · split
      · next h => subst h; simp
      · simp only [List.mem_cons, ih]; tauto

theorem mem_noteAddrs {l : List Nat} {a n x : Nat} : x ∈ noteAddrs l a n ↔ x ∈ l ∨ (a ≤ x ∧ x < a + n) := by
  induction n generalizing l a with
  | zero =>
    have hno : ¬(a ≤ x ∧ x < a + 0) := by omega
    simp only [noteAddrs, hno, or_false]
  | succ n ih =>
    rw [noteAddrs, ih, mem_noteAddr]
    constructor
    · rintro ((rfl | h) | h)
      · exact .inr (by omega)
      · exact .inl h
      · exact .inr (by omega)
    · rintro (h | h)
      · exact .inl (.inr h)
      · by_cases hx : x = a
        · exact .inl (.inl hx)
        · exact .inr (by omega)

theorem addrsRising_cons (a : Nat) (l : List Nat) :
    addrsRising (a :: l) = true ↔ (∀ b ∈ l, a < b) ∧ addrsRising l = true := by
  induction l generalizing a with
  | nil => simp [addrsRising]
  | cons b rest ih =>
    simp only [addrsRising, Bool.and_eq_true, decide_eq_true_eq]
    constructor
    · rintro ⟨hab, h⟩
      refine ⟨?_, h⟩
      intro c hc
      rcases List.mem_cons.1 hc with rfl | hc
      · exact hab
      · exact Nat.lt_trans hab (((ih b).1 h).1 c hc)
    · rintro ⟨hall, h⟩
      exact ⟨hall b (List.mem_cons_self ..), h⟩

theorem noteAddr_rising {l : List Nat} (a : Nat) (h : addrsRising l = true) : addrsRising (noteAddr l a) = true := by
  induction l with
  | nil => rfl
  | cons b rest ih =>
    obtain ⟨hb, hr⟩ := (addrsRising_cons b rest).1 h
    simp only [noteAddr]
    split
    · next hlt =>
      refine (addrsRising_cons a _).2 ⟨?_, h⟩
      intro c hc
      rcases List.mem_cons.1 hc with rfl | hc
      · exact hlt
      · exact Nat.lt_trans hlt (hb c hc)
    · split
      · exact h
      · next hge hne =>
        refine (addrsRising_cons b _).2 ⟨?_, ih hr⟩
        intro c hc
        rcases mem_noteAddr.1 hc with rfl | hc
        · omega
        · exact hb c hc

theorem noteAddrs_rising {l : List Nat} (a n : Nat) (h : addrsRising l = true) :
    addrsRising (noteAddrs l a n) = true := by
  induction n generalizing l a with
  | zero => exact h
  | succ n ih => exact ih (a + 1) (noteAddr_rising a h)

/-! ### Valid bytes -/

theorem accessOk_iff {p : Platform} {addr : Word} {n : Nat} :
    accessOk p addr n = true ↔ addr.toNat + n ≤ 2 ^ 64 ∧ ∀ k, k < n → validAddr p (addr.toNat + k) = true := by
  simp [accessOk, List.all_eq_true]

/-- The test the machine makes is the condition claims speak of. -/
theorem accessOk_iff_bytesValid {s : State} {addr : Word} {n : Nat} :
    accessOk s.platform addr n = true ↔ BytesValid s addr n := accessOk_iff

end Sys2Proof.Machine
end

