-- ==== Sys2Proof/Laws/State.lean ====
section
/-! SUPPORT. The small lemmas of the state's updates: each update leaves every other field alone. -/

namespace Sys2Proof.Machine

section Registers

variable (s : State) (r q : RegIdx) (v p : Word) (c : Category)

@[simp] theorem readReg_zero : s.readReg 0 = 0 := rfl

@[simp] theorem writeReg_pc : (s.writeReg r v).pc = s.pc := by unfold State.writeReg; split <;> rfl
@[simp] theorem writeReg_ctr : (s.writeReg r v).ctr = s.ctr := by unfold State.writeReg; split <;> rfl
@[simp] theorem writeReg_status : (s.writeReg r v).status = s.status := by unfold State.writeReg; split <;> rfl
@[simp] theorem writeReg_mem : (s.writeReg r v).mem = s.mem := by unfold State.writeReg; split <;> rfl
@[simp] theorem writeReg_stored : (s.writeReg r v).stored = s.stored := by unfold State.writeReg; split <;> rfl
@[simp] theorem writeReg_code : (s.writeReg r v).code = s.code := by unfold State.writeReg; split <;> rfl
@[simp] theorem writeReg_platform : (s.writeReg r v).platform = s.platform := by unfold State.writeReg; split <;> rfl

/-- What a register reads after a write: `x[0]` stays 0, the register written has the value, the others are as before. -/
theorem readReg_writeReg : (s.writeReg r v).readReg q = if q = r ∧ r ≠ 0 then v else s.readReg q := by
  unfold State.writeReg State.readReg
  by_cases hr : r = 0
  · simp [hr]
  · by_cases hq : q = r
    · subst hq; simp [hr]
    · have hne : r.val ≠ q.val := fun h => hq (Fin.ext h.symm)
      simp [hr, hq, Vector.getElem_set_ne, hne]

@[simp] theorem readReg_writeReg_same (h : r ≠ 0) : (s.writeReg r v).readReg r = v := by
  simp [readReg_writeReg, h]

@[simp] theorem readReg_writeReg_ne (h : q ≠ r) : (s.writeReg r v).readReg q = s.readReg q := by
  simp [readReg_writeReg, h]

/-- The register behind `x[0]` is never written. -/
theorem writeReg_regs_zero : (s.writeReg r v).regs[0] = s.regs[0] := by
  unfold State.writeReg
  split
  · rfl
  · next h =>
    have hne : r.val ≠ 0 := fun e => h (Fin.ext e)
    simp [Vector.getElem_set_ne, hne]

@[simp] theorem retire_pc : (s.retire c p).pc = p := rfl
@[simp] theorem retire_ctr : (s.retire c p).ctr = s.ctr.count c := rfl
@[simp] theorem retire_status : (s.retire c p).status = s.status := rfl
@[simp] theorem retire_regs : (s.retire c p).regs = s.regs := rfl
@[simp] theorem retire_mem : (s.retire c p).mem = s.mem := rfl
@[simp] theorem retire_stored : (s.retire c p).stored = s.stored := rfl
@[simp] theorem retire_code : (s.retire c p).code = s.code := rfl
@[simp] theorem retire_platform : (s.retire c p).platform = s.platform := rfl
@[simp] theorem readReg_retire : (s.retire c p).readReg q = s.readReg q := rfl

end Registers

end Sys2Proof.Machine
end

