-- ==== Sys2Proof/Laws/Ops.lean ====
section
/-! SUPPORT. One lemma for each shared operation, and what an instruction can do, said once (`exec_cases`). -/

namespace Sys2Proof.Machine

/-! ### The memory primitives -/

theorem memRead_valid {s : State} {addr : Word} {n : Nat} (h : BytesValid s addr n) :
    memRead s addr n = .ok (leJoin n (byteAt s addr)) := if_pos (accessOk_iff_bytesValid.2 h)

theorem memRead_invalid {s : State} {addr : Word} {n : Nat} (h : ¬ BytesValid s addr n) :
    memRead s addr n = .error (.memoryFault .load addr n) :=
  if_neg (fun hok => h (accessOk_iff_bytesValid.1 hok))

/-- The state after the write of n bytes. -/
def wroteBytes (s : State) (addr : Word) (n : Nat) (v : BitVec (8 * n)) : State :=
  { s with mem := writeBytes s.mem addr.toNat n (fun k => leByte v k), stored := noteAddrs s.stored addr.toNat n }

@[simp] theorem wroteBytes_ctr (s : State) (addr : Word) (n : Nat) (v : BitVec (8 * n)) :
    (wroteBytes s addr n v).ctr = s.ctr := rfl
@[simp] theorem wroteBytes_status (s : State) (addr : Word) (n : Nat) (v : BitVec (8 * n)) :
    (wroteBytes s addr n v).status = s.status := rfl
@[simp] theorem wroteBytes_code (s : State) (addr : Word) (n : Nat) (v : BitVec (8 * n)) :
    (wroteBytes s addr n v).code = s.code := rfl
@[simp] theorem wroteBytes_platform (s : State) (addr : Word) (n : Nat) (v : BitVec (8 * n)) :
    (wroteBytes s addr n v).platform = s.platform := rfl
@[simp] theorem readReg_wroteBytes (s : State) (addr : Word) (n : Nat) (v : BitVec (8 * n)) (r : RegIdx) :
    (wroteBytes s addr n v).readReg r = s.readReg r := rfl

/-- A byte of data memory after the write of n bytes. -/
theorem readByte_wroteBytes {s : State} (addr : Word) (n : Nat) (v : BitVec (8 * n)) (b : Nat)
    (hm : Memory.wf s.mem = true) :
    readByte (wroteBytes s addr n v).mem b
      = if addr.toNat ≤ b ∧ b < addr.toNat + n then leByte v (b - addr.toNat) else readByte s.mem b :=
  readByte_writeBytes addr.toNat n b _ hm

theorem memWrite_valid {s : State} {addr : Word} {n : Nat} (v : BitVec (8 * n)) (h : BytesValid s addr n) :
    memWrite s addr n v = .ok (wroteBytes s addr n v) := if_pos (accessOk_iff_bytesValid.2 h)

theorem memWrite_invalid {s : State} {addr : Word} {n : Nat} (v : BitVec (8 * n)) (h : ¬ BytesValid s addr n) :
    memWrite s addr n v = .error (.memoryFault .store addr n) :=
  if_neg (fun hok => h (accessOk_iff_bytesValid.1 hok))

/-! ### Shift amounts -/

theorem shiftAmount6_eq (v : Word) : shiftAmount6 v = v.toNat % 64 := by
  simp [shiftAmount6, BitVec.extractLsb'_toNat]

theorem shiftAmount5_eq (v : Word) : shiftAmount5 v = v.toNat % 32 := by
  simp [shiftAmount5, BitVec.extractLsb'_toNat]

/-! ### The shared bodies of the units -/

theorem loadZeroExtended_valid {n : Nat} {rd rs1 : RegIdx} {imm : BitVec 12} {s : State}
    (h : BytesValid s (effAddr s rs1 imm) n) :
    loadZeroExtended n rd rs1 imm s
      = .next ((s.writeReg rd (zext64 (leJoin n (byteAt s (effAddr s rs1 imm))))).retire .load (pcPlus4 s)) := by
  rw [loadZeroExtended, memRead_valid h]

theorem loadZeroExtended_invalid {n : Nat} {rd rs1 : RegIdx} {imm : BitVec 12} {s : State}
    (h : ¬ BytesValid s (effAddr s rs1 imm) n) :
    loadZeroExtended n rd rs1 imm s = raise (.memoryFault .load (effAddr s rs1 imm) n) s := by
  rw [loadZeroExtended, memRead_invalid h]

theorem storeLow_valid {n : Nat} {rs2 rs1 : RegIdx} {imm : BitVec 12} {s : State}
    (h : BytesValid s (effAddr s rs1 imm) n) :
    storeLow n rs2 rs1 imm s
      = .next ((wroteBytes s (effAddr s rs1 imm) n ((s.readReg rs2).setWidth (8 * n))).retire .store (pcPlus4 s)) := by
  rw [storeLow, memWrite_valid _ h]

theorem storeLow_invalid {n : Nat} {rs2 rs1 : RegIdx} {imm : BitVec 12} {s : State}
    (h : ¬ BytesValid s (effAddr s rs1 imm) n) :
    storeLow n rs2 rs1 imm s = raise (.memoryFault .store (effAddr s rs1 imm) n) s := by
  rw [storeLow, memWrite_invalid _ h]

/-- Byte k of the low n bytes of a value, for k below n. -/
theorem leByte_setWidth (v : Word) {n k : Nat} (hk : k < n) :
    leByte (v.setWidth (8 * n)) k = (v >>> (8 * k)).setWidth 8 := by
  apply BitVec.eq_of_getLsbD_eq
  intro i hi
  have h1 : 8 * k + i < 8 * n := by omega
  simp [leByte, hi, h1]

/-! ### What an instruction can do -/

/-- The state before the counters and `pc` move: nothing written, the destination written, or the store done. -/
def Wrote (i : Instr) (s s' : State) : Prop :=
  ((∀ addr n, accessOf s i ≠ some (.store, addr, n)) ∧ (s' = s ∨ ∃ r v, destOf i = some r ∧ s' = s.writeReg r v))
    ∨ ∃ addr n v, accessOf s i = some (.store, addr, n) ∧ BytesValid s addr n ∧ s' = wroteBytes s addr n v

/-- The two ends of an instruction. -/
def ExecCases (i : Instr) (s : State) : Prop :=
  (∃ kind addr n, accessOf s i = some (kind, addr, n) ∧ ¬ BytesValid s addr n
      ∧ exec i s = raise (.memoryFault kind addr n) s)
    ∨ ((∀ kind addr n, accessOf s i = some (kind, addr, n) → BytesValid s addr n)
      ∧ ∃ s' p, exec i s = .next (s'.retire (categoryOf s i) p) ∧ Wrote i s s')

theorem execCases_of_write {i : Instr} {s : State} {r : RegIdx} {v p : Word} (hacc : accessOf s i = none)
    (hdest : destOf i = some r) (h : exec i s = .next ((s.writeReg r v).retire (categoryOf s i) p)) : ExecCases i s :=
  .inr ⟨by simp [hacc], _, p, h, .inl ⟨by simp [hacc], .inr ⟨r, v, hdest, rfl⟩⟩⟩

theorem execCases_of_load {i : Instr} {s : State} {rd rs1 : RegIdx} {imm : BitVec 12} {n : Nat}
    (hacc : accessOf s i = some (.load, effAddr s rs1 imm, n)) (hdest : destOf i = some rd)
    (hcat : categoryOf s i = .load) (h : exec i s = loadZeroExtended n rd rs1 imm s) : ExecCases i s := by
  by_cases hv : BytesValid s (effAddr s rs1 imm) n
  · refine .inr ⟨?_, _, pcPlus4 s, by rw [h, loadZeroExtended_valid hv, hcat], .inl ⟨by simp [hacc], .inr ⟨rd, _, hdest, rfl⟩⟩⟩
    intro kind addr m he
    rw [hacc] at he
    cases he
    exact hv
  · exact .inl ⟨_, _, _, hacc, hv, by rw [h, loadZeroExtended_invalid hv]⟩

theorem execCases_of_store {i : Instr} {s : State} {rs2 rs1 : RegIdx} {imm : BitVec 12} {n : Nat}
    (hacc : accessOf s i = some (.store, effAddr s rs1 imm, n)) (hcat : categoryOf s i = .store)
    (h : exec i s = storeLow n rs2 rs1 imm s) : ExecCases i s := by
  by_cases hv : BytesValid s (effAddr s rs1 imm) n
  · refine .inr ⟨?_, _, pcPlus4 s, by rw [h, storeLow_valid hv, hcat], .inr ⟨_, _, _, hacc, hv, rfl⟩⟩
    intro kind addr m he
    rw [hacc] at he
    cases he
    exact hv
  · exact .inl ⟨_, _, _, hacc, hv, by rw [h, storeLow_invalid hv]⟩

theorem execCases_of_branch {i : Instr} {s : State} {c : Bool} {off : BitVec 12} (hacc : accessOf s i = none)
    (hcat : categoryOf s i = if c then .branchTaken else .branchNotTaken) (h : exec i s = branchIf c off s) :
    ExecCases i s := by
  cases c
  · exact .inr ⟨by simp [hacc], s, pcPlus4 s, by rw [h, hcat]; rfl, .inl ⟨by simp [hacc], .inl rfl⟩⟩
  · exact .inr ⟨by simp [hacc], s, pcRelative s off, by rw [h, hcat]; rfl, .inl ⟨by simp [hacc], .inl rfl⟩⟩

/-- Everything an instruction can do: it raises MemoryFault for its own invalid access, or it writes what it writes, counts
under its category and moves `pc`. -/
theorem exec_cases (i : Instr) (s : State) : ExecCases i s := by
  cases i with
  | add rd _ _ | sub rd _ _ | mul rd _ _ | and rd _ _ | sll rd _ _ | srl rd _ _ | sra rd _ _ => exact execCases_of_write rfl rfl rfl
  | addRw rd _ _ | subRw rd _ _ | mulRw rd _ _ | andRw rd _ _ | sllw rd _ _ | srlRw rd _ _ | sraw rd _ _ =>
    exact execCases_of_write rfl rfl rfl
  | addi rd _ _ | srli rd _ _ | jal rd _ => exact execCases_of_write rfl rfl rfl
  | lb rd rs1 imm | lw rd rs1 imm | ld rd rs1 imm => exact execCases_of_load rfl rfl rfl rfl
  | sb rs2 rs1 imm | sw rs2 rs1 imm | sd rs2 rs1 imm => exact execCases_of_store rfl rfl rfl
  | beq rs1 rs2 off => exact execCases_of_branch rfl (by simp [categoryOf, condEq]) rfl
  | bne rs1 rs2 off => exact execCases_of_branch rfl (by simp [categoryOf, condNe]) rfl
  | blt rs1 rs2 off => exact execCases_of_branch rfl (by simp [categoryOf, condLt]) rfl
  | bge rs1 rs2 off =>
    refine execCases_of_branch (c := condGe (s.readReg rs1) (s.readReg rs2)) rfl ?_ rfl
    by_cases h : (s.readReg rs1).toInt < (s.readReg rs2).toInt
    · simp [categoryOf, condGe, h]
    · simp [categoryOf, condGe, h, Int.not_lt.1 h]
  | jalr rd rs1 imm =>
    by_cases hrd : rd = 0
    · exact .inr ⟨by simp [accessOf], s, effAddr s rs1 imm, by simp [exec, execJalr, hrd, categoryOf],
        .inl ⟨by simp [accessOf], .inl rfl⟩⟩
    · exact .inr ⟨by simp [accessOf], _, effAddr s rs1 imm, by simp [exec, execJalr, hrd, categoryOf],
        .inl ⟨by simp [accessOf], .inr ⟨regRA, pcPlus4 s, rfl, rfl⟩⟩⟩

end Sys2Proof.Machine
end

