-- ==== Sys2Proof/Laws/PerInstr.lean ====
section
/-! SUPPORT. A family of statements with one lemma for each instruction: its encoded word selects its own row of the opcode
map (30_encoding.md R100), for every value of its operands. -/

namespace Sys2Proof.Laws

/-- The word of the instruction selects the row that carries its mnemonic. -/
def EncodeSelectsRow.Statement (i : Instr) : Prop :=
  ∃ row ∈ opcodeTable, row.1 = i.mnemonic ∧ selects (encode i) row.2.2 row.2.1 = true

namespace EncodeSelectsRow

/-- An R-format word selects the row of its opcode and functs. -/
theorem of_encodeR {i : Instr} (row : String × IWord × IWord) (hmem : row ∈ opcodeTable) (hname : row.1 = i.mnemonic)
    (hmask : row.2.2 = 0xFE00707F#32) {f7 : BitVec 7} {rs2 rs1 rd : RegIdx} {f3 : BitVec 3} {opc : BitVec 7}
    (henc : encode i = encodeR f7 rs2 rs1 f3 rd opc)
    (hp : row.2.1 = encodeR f7 0 0 f3 0 opc) (hclosed : encodeR f7 0 0 f3 0 opc &&& 0xFE00707F#32 = encodeR f7 0 0 f3 0 opc) :
    Statement i := by
  refine ⟨row, hmem, hname, ?_⟩
  rw [henc, hmask, hp]
  refine selects_of_functs ?_ ?_ ?_ hclosed
  · rw [encodeR_opcode]; exact (encodeR_opcode f7 0 0 f3 0 opc).symm
  · rw [encodeR_funct3]; exact (encodeR_funct3 f7 0 0 f3 0 opc).symm
  · rw [encodeR_funct7]; exact (encodeR_funct7 f7 0 0 f3 0 opc).symm

/-- An I-format word selects the row of its opcode and funct3. -/
theorem of_encodeI {i : Instr} (row : String × IWord × IWord) (hmem : row ∈ opcodeTable) (hname : row.1 = i.mnemonic)
    (hmask : row.2.2 = 0x0000707F#32) {imm : BitVec 12} {rs1 rd : RegIdx} {f3 : BitVec 3} {opc : BitVec 7}
    (henc : encode i = encodeI imm rs1 f3 rd opc)
    (hp : row.2.1 = encodeI 0 0 f3 0 opc) (hclosed : encodeI 0 0 f3 0 opc &&& 0x0000707F#32 = encodeI 0 0 f3 0 opc) :
    Statement i := by
  refine ⟨row, hmem, hname, ?_⟩
  rw [henc, hmask, hp]
  refine selects_of_funct3 ?_ ?_ hclosed
  · rw [encodeI_opcode]; exact (encodeI_opcode 0 0 f3 0 opc).symm
  · rw [encodeI_funct3]; exact (encodeI_funct3 0 0 f3 0 opc).symm

/-- An S-format word selects the row of its opcode and funct3. -/
theorem of_encodeS {i : Instr} (row : String × IWord × IWord) (hmem : row ∈ opcodeTable) (hname : row.1 = i.mnemonic)
    (hmask : row.2.2 = 0x0000707F#32) {imm : BitVec 12} {rs2 rs1 : RegIdx} {f3 : BitVec 3} {opc : BitVec 7}
    (henc : encode i = encodeS imm rs2 rs1 f3 opc)
    (hp : row.2.1 = encodeS 0 0 0 f3 opc) (hclosed : encodeS 0 0 0 f3 opc &&& 0x0000707F#32 = encodeS 0 0 0 f3 opc) :
    Statement i := by
  refine ⟨row, hmem, hname, ?_⟩
  rw [henc, hmask, hp]
  refine selects_of_funct3 ?_ ?_ hclosed
  · rw [encodeS_opcode]; exact (encodeS_opcode 0 0 0 f3 opc).symm
  · rw [encodeS_funct3]; exact (encodeS_funct3 0 0 0 f3 opc).symm

end EncodeSelectsRow

theorem EncodeSelectsRow.add (rd rs1 rs2 : RegIdx) : EncodeSelectsRow.Statement (.add rd rs1 rs2) :=
  of_encodeR ("ADD", 0x00000033#32, 0xFE00707F#32) (by decide) rfl rfl rfl (by decide) (by decide)

theorem EncodeSelectsRow.sub (rd rs1 rs2 : RegIdx) : EncodeSelectsRow.Statement (.sub rd rs1 rs2) :=
  of_encodeR ("SUB", 0x40000033#32, 0xFE00707F#32) (by decide) rfl rfl rfl (by decide) (by decide)

theorem EncodeSelectsRow.mul (rd rs1 rs2 : RegIdx) : EncodeSelectsRow.Statement (.mul rd rs1 rs2) :=
  of_encodeR ("MUL", 0x02000033#32, 0xFE00707F#32) (by decide) rfl rfl rfl (by decide) (by decide)

theorem EncodeSelectsRow.and (rd rs1 rs2 : RegIdx) : EncodeSelectsRow.Statement (.and rd rs1 rs2) :=
  of_encodeR ("AND", 0x00007033#32, 0xFE00707F#32) (by decide) rfl rfl rfl (by decide) (by decide)

theorem EncodeSelectsRow.sll (rd rs1 rs2 : RegIdx) : EncodeSelectsRow.Statement (.sll rd rs1 rs2) :=
  of_encodeR ("SLL", 0x00001033#32, 0xFE00707F#32) (by decide) rfl rfl rfl (by decide) (by decide)

theorem EncodeSelectsRow.srl (rd rs1 rs2 : RegIdx) : EncodeSelectsRow.Statement (.srl rd rs1 rs2) :=
  of_encodeR ("SRL", 0x00005033#32, 0xFE00707F#32) (by decide) rfl rfl rfl (by decide) (by decide)

theorem EncodeSelectsRow.sra (rd rs1 rs2 : RegIdx) : EncodeSelectsRow.Statement (.sra rd rs1 rs2) :=
  of_encodeR ("SRA", 0x40005033#32, 0xFE00707F#32) (by decide) rfl rfl rfl (by decide) (by decide)

theorem EncodeSelectsRow.addRw (rd rs1 rs2 : RegIdx) : EncodeSelectsRow.Statement (.addRw rd rs1 rs2) :=
  of_encodeR ("ADD.RW", 0x0000003B#32, 0xFE00707F#32) (by decide) rfl rfl rfl (by decide) (by decide)

theorem EncodeSelectsRow.subRw (rd rs1 rs2 : RegIdx) : EncodeSelectsRow.Statement (.subRw rd rs1 rs2) :=
  of_encodeR ("SUB.RW", 0x4000003B#32, 0xFE00707F#32) (by decide) rfl rfl rfl (by decide) (by decide)

theorem EncodeSelectsRow.mulRw (rd rs1 rs2 : RegIdx) : EncodeSelectsRow.Statement (.mulRw rd rs1 rs2) :=
  of_encodeR ("MUL.RW", 0x0200003B#32, 0xFE00707F#32) (by decide) rfl rfl rfl (by decide) (by decide)

theorem EncodeSelectsRow.andRw (rd rs1 rs2 : RegIdx) : EncodeSelectsRow.Statement (.andRw rd rs1 rs2) :=
  of_encodeR ("AND.RW", 0x0000703B#32, 0xFE00707F#32) (by decide) rfl rfl rfl (by decide) (by decide)

theorem EncodeSelectsRow.sllw (rd rs1 rs2 : RegIdx) : EncodeSelectsRow.Statement (.sllw rd rs1 rs2) :=
  of_encodeR ("SLLW", 0x0000103B#32, 0xFE00707F#32) (by decide) rfl rfl rfl (by decide) (by decide)

theorem EncodeSelectsRow.srlRw (rd rs1 rs2 : RegIdx) : EncodeSelectsRow.Statement (.srlRw rd rs1 rs2) :=
  of_encodeR ("SRL.RW", 0x0000503B#32, 0xFE00707F#32) (by decide) rfl rfl rfl (by decide) (by decide)

theorem EncodeSelectsRow.sraw (rd rs1 rs2 : RegIdx) : EncodeSelectsRow.Statement (.sraw rd rs1 rs2) :=
  of_encodeR ("SRAW", 0x4000503B#32, 0xFE00707F#32) (by decide) rfl rfl rfl (by decide) (by decide)

theorem EncodeSelectsRow.addi (rd rs1 : RegIdx) (imm : BitVec 12) : EncodeSelectsRow.Statement (.addi rd rs1 imm) :=
  of_encodeI ("ADDI", 0x00000013#32, 0x0000707F#32) (by decide) rfl rfl rfl (by decide) (by decide)

theorem EncodeSelectsRow.lb (rd rs1 : RegIdx) (imm : BitVec 12) : EncodeSelectsRow.Statement (.lb rd rs1 imm) :=
  of_encodeI ("LB", 0x00000003#32, 0x0000707F#32) (by decide) rfl rfl rfl (by decide) (by decide)

theorem EncodeSelectsRow.lw (rd rs1 : RegIdx) (imm : BitVec 12) : EncodeSelectsRow.Statement (.lw rd rs1 imm) :=
  of_encodeI ("LW", 0x00002003#32, 0x0000707F#32) (by decide) rfl rfl rfl (by decide) (by decide)

theorem EncodeSelectsRow.ld (rd rs1 : RegIdx) (imm : BitVec 12) : EncodeSelectsRow.Statement (.ld rd rs1 imm) :=
  of_encodeI ("LD", 0x00003003#32, 0x0000707F#32) (by decide) rfl rfl rfl (by decide) (by decide)

theorem EncodeSelectsRow.sb (rs2 rs1 : RegIdx) (imm : BitVec 12) : EncodeSelectsRow.Statement (.sb rs2 rs1 imm) :=
  of_encodeS ("SB", 0x00000023#32, 0x0000707F#32) (by decide) rfl rfl rfl (by decide) (by decide)

theorem EncodeSelectsRow.sw (rs2 rs1 : RegIdx) (imm : BitVec 12) : EncodeSelectsRow.Statement (.sw rs2 rs1 imm) :=
  of_encodeS ("SW", 0x00002023#32, 0x0000707F#32) (by decide) rfl rfl rfl (by decide) (by decide)

theorem EncodeSelectsRow.sd (rs2 rs1 : RegIdx) (imm : BitVec 12) : EncodeSelectsRow.Statement (.sd rs2 rs1 imm) :=
  of_encodeS ("SD", 0x00003023#32, 0x0000707F#32) (by decide) rfl rfl rfl (by decide) (by decide)

theorem EncodeSelectsRow.beq (rs1 rs2 : RegIdx) (imm : BitVec 12) : EncodeSelectsRow.Statement (.beq rs1 rs2 imm) :=
  of_encodeS ("BEQ", 0x00000063#32, 0x0000707F#32) (by decide) rfl rfl rfl (by decide) (by decide)

theorem EncodeSelectsRow.bne (rs1 rs2 : RegIdx) (imm : BitVec 12) : EncodeSelectsRow.Statement (.bne rs1 rs2 imm) :=
  of_encodeS ("BNE", 0x00001063#32, 0x0000707F#32) (by decide) rfl rfl rfl (by decide) (by decide)

theorem EncodeSelectsRow.blt (rs1 rs2 : RegIdx) (imm : BitVec 12) : EncodeSelectsRow.Statement (.blt rs1 rs2 imm) :=
  of_encodeS ("BLT", 0x00004063#32, 0x0000707F#32) (by decide) rfl rfl rfl (by decide) (by decide)

theorem EncodeSelectsRow.bge (rs1 rs2 : RegIdx) (imm : BitVec 12) : EncodeSelectsRow.Statement (.bge rs1 rs2 imm) :=
  of_encodeS ("BGE", 0x00005063#32, 0x0000707F#32) (by decide) rfl rfl rfl (by decide) (by decide)

theorem EncodeSelectsRow.srli (rd rs1 : RegIdx) (shamt : BitVec 5) :
    EncodeSelectsRow.Statement (.srli rd rs1 shamt) := by
  refine ⟨("SRLI", 0x00005013#32, 0xFE00707F#32), by decide, rfl, selects_of_functs ?_ ?_ ?_ (by decide)⟩
  · exact (encodeI_opcode _ rs1 _ rd opcIArith).trans (by decide)
  · exact (encodeI_funct3 _ rs1 _ rd opcIArith).trans (by decide)
  · exact ((encodeI_immPart (0b0000000#7 ++ shamt : BitVec 12) rs1 _ rd opcIArith 5 7).trans
      ((extract_append_high 0b0000000#7 shamt 0 7).trans (BitVec.extractLsb'_eq_self ..))).trans (by decide)

theorem EncodeSelectsRow.jal (rd : RegIdx) (off : BitVec 21) : EncodeSelectsRow.Statement (.jal rd off) :=
  ⟨("JAL", 0x0000006F#32, 0x0000007F#32), by decide, rfl,
    selects_of_opcode ((encodeJ_opcode off rd opcJal).trans (by decide)) (by decide)⟩

theorem EncodeSelectsRow.jalr (rd rs1 : RegIdx) (imm : BitVec 12) : EncodeSelectsRow.Statement (.jalr rd rs1 imm) :=
  ⟨("JALR", 0x00000067#32, 0x0000007F#32), by decide, rfl,
    selects_of_opcode ((encodeI_opcode imm rs1 _ rd opcJalr).trans (by decide)) (by decide)⟩

end Sys2Proof.Laws
end

