-- ==== Sys2Proof/Laws/Step.lean ====
section
/-! SUPPORT. What a step can do, said once, and small facts about fetching. -/

namespace Sys2Proof.Machine

/-- `pc[1:0] != 0` is not being a multiple of 4. -/
theorem pcMisaligned_iff (pc : Word) : pcMisaligned pc = true ↔ pc.toNat % 4 ≠ 0 := by
  rw [pcMisaligned, decide_eq_true_eq, ne_eq, ne_eq, ← BitVec.toNat_inj]
  simp [BitVec.extractLsb'_toNat]

theorem fetchIsStored_iff {s : State} {a : Nat} : fetchIsStored s a = true ↔ ∃ k, k < 4 ∧ a + k ∈ s.stored := by
  simp [fetchIsStored, List.any_eq_true]

/-- Of a Running state with the invariant the counters add up. -/
theorem balanced_of_running {s : State} (h : s.Inv) (hrun : s.status = .running) : s.ctr.balanced = true :=
  h.counters (fun f => by rw [hrun]; exact fun e => nomatch e)

/-- With the word fetched, the step is the decoded word's effect or its fault. -/
theorem step_of_fetches {s : State} {w : IWord} (h : FetchesWord s w) : step s = runWord w s := by
  obtain ⟨hrun, hne, hal, hf, hst⟩ := h
  have h1 : pcMisaligned s.pc = false := by
    rw [← Bool.not_eq_true, pcMisaligned_iff]; exact fun hn => hn hal
  have h2 : fetchIsStored s s.pc.toNat = false := by
    rw [← Bool.not_eq_true, fetchIsStored_iff]; rintro ⟨k, hk, hm⟩; exact hst k hk hm
  simp [step, engineStep, hrun, hne, fetchAndRun, h1, hf, h2]

/-- Everything a step that answers a next state can have done: stopped, raised a fault, or run an instruction. -/
theorem step_cases {s t : State} (h : step s = .next t) :
    s.status = .running ∧
      (t = { s with status := .stopped } ∨ (∃ f, t = { s with status := .faulted f }) ∨ ∃ i, exec i s = .next t) := by
  unfold step engineStep at h
  split at h
  · next hrun =>
    refine ⟨hrun, ?_⟩
    split at h
    · exact .inl (by cases h; rfl)
    · unfold fetchAndRun at h
      split at h
      · exact .inr (.inl ⟨_, by cases h; rfl⟩)
      · split at h
        · exact .inr (.inl ⟨_, by cases h; rfl⟩)
        · split at h
          · cases h
          · unfold runWord at h
            split at h
            · next i _ => exact .inr (.inr ⟨i, h⟩)
            · exact .inr (.inl ⟨_, by cases h; rfl⟩)
  · cases h
  · cases h

end Sys2Proof.Machine
end

