-- ==== Sys2Proof/Tests/Slice0.lean ====
section
/-! SUPPORT. The model's own tests. Words and results come from 95_test_vectors.md (V<n>, T<n>); every theorem is about one
word or one step. Theorems test_witness_<name> show states that meet the hypotheses of the statement of that name. -/

namespace Sys2Proof.Tests

open Sys2Proof.Machine

/-! ### The states the tests start from -/

/-- The example platform of 70_reset_and_hazards.md R264 with a sentinel. -/
def platform (sentinel : Word) : Platform :=
  { stopSentinel := sentinel, stackBase := 0x7000#64, stackSize := 0x1000, image := [] }

/-- A start state of 95_test_vectors.md: `pc` holds the word, the registers and bytes named, the others as at reset. -/
def startAt (sentinel pc : Word) (w : IWord) (regs : List (RegIdx × Word)) (mem : Memory) : State :=
  regs.foldl (fun s r => s.writeReg r.1 r.2)
    { State.reset with
      platform := platform sentinel, pc := pc, code := putCode [] pc.toNat (wordBytes w), mem := mem }

/-- The start of most vectors: sentinel 0, `pc` 0x1000, memory zero. -/
def start (w : IWord) (regs : List (RegIdx × Word)) : State := startAt 0#64 0x1000#64 w regs []

/-- The start of the control-transfer vectors: sentinel 0xDEAD0000. -/
def startJump (pc : Word) (w : IWord) (regs : List (RegIdx × Word)) : State := startAt 0xDEAD0000#64 pc w regs []

/-- The memory of the load vectors. -/
def loadBytes : Memory :=
  [(0x7F00, 0x88), (0x7F01, 0x77), (0x7F02, 0x66), (0x7F03, 0x55), (0x7F04, 0x44), (0x7F05, 0x33), (0x7F06, 0x22),
   (0x7F07, 0x11), (0x7F08, 0x80), (0x7F0B, 0x80), (0x7F0C, 0xFF), (0x7F0D, 0xFF), (0x7F0E, 0xFF), (0x7F0F, 0xFF)]

/-- The memory of the store vectors. -/
def storeBytes : Memory := writeBytes [] 0x7F00 16 (fun _ => 0xAA)

/-- What one step leaves, as far as a test looks; none where the step answers no next state. -/
def after {α : Type} (s : State) (look : State → α) : Option α :=
  match step s with
  | .next t => some (look t)
  | .fault _ => none
  | .refused _ => none

/-- `x[5]`, `pc`, `i_count`, `ir_count`. -/
def lookIR (t : State) : Word × Word × Word × Word := (t.readReg 5, t.pc, t.ctr.i_count, t.ctr.ir_count)

/-- `x[5]`, `pc`, `i_count`, `ld_count`. -/
def lookLoad (t : State) : Word × Word × Word × Word := (t.readReg 5, t.pc, t.ctr.i_count, t.ctr.ld_count)

/-- The sixteen bytes from 0x7F00, `pc`, `st_count`. -/
def lookStore (t : State) : List Byte × Word × Word :=
  ((List.range 16).map (fun k => readByte t.mem (0x7F00 + k)), t.pc, t.ctr.st_count)

/-- `pc`, `b_taken`, `b_not_taken`, `i_count`. -/
def lookBranch (t : State) : Word × Word × Word × Word := (t.pc, t.ctr.b_taken, t.ctr.b_not_taken, t.ctr.i_count)

/-- `pc`, `x[1]`, `x[5]`, `j_count`. -/
def lookJump (t : State) : Word × Word × Word × Word := (t.pc, t.readReg 1, t.readReg 5, t.ctr.j_count)

/-! ### Well-formedness refuses each ill-formed term -/

/-- A platform with two image regions, all constraints met. -/
def twoRegions : Platform :=
  { stopSentinel := 0xDEAD0000#64, stackBase := 0x7000#64, stackSize := 0x1000,
    image := [{ base := 0x2000#64, size := 16, init := [0x11, 0x22] }, { base := 0x3000#64, size := 1, init := [0x33] }] }

theorem test_wf_platform : twoRegions.wellFormed = true := by decide
theorem test_wf_example_platform : (platform 0#64).wellFormed = true := by decide
theorem test_wf_refuses_odd_jal_offset : (Instr.jal 1 3#21).wellFormed = false := by decide
theorem test_wf_refuses_empty_stack : { twoRegions with stackSize := 0 }.wellFormed = false := by decide
theorem test_wf_refuses_stack_to_the_top :
    { twoRegions with stackBase := 0xFFFFFFFFFFFFF000#64 }.wellFormed = false := by decide
theorem test_wf_refuses_region_in_stack :
    { twoRegions with image := [{ base := 0x7FFF#64, size := 1, init := [] }] }.wellFormed = false := by decide
/-- Log 20, the model's choice: an empty region overlaps nothing. -/
theorem test_wf_empty_region_in_stack :
    { twoRegions with image := [{ base := 0x7800#64, size := 0, init := [] }] }.wellFormed = true := by decide
theorem test_wf_refuses_overlapping_regions :
    { twoRegions with image := [{ base := 0x2000#64, size := 16, init := [] },
                                { base := 0x200F#64, size := 1, init := [] }] }.wellFormed = false := by decide
theorem test_wf_refuses_region_past_the_top :
    ({ base := 0xFFFFFFFFFFFFFFFF#64, size := 2, init := [] } : Region).wellFormed = false := by decide
theorem test_wf_refuses_too_many_initial_bytes :
    ({ base := 0x2000#64, size := 1, init := [0, 0] } : Region).wellFormed = false := by decide

/-! ### Decoding: words written out from 30_encoding.md, one or more for each constructor -/

/-- V1. -/
theorem test_decode_add : decode 0x007302B3#32 = .ok (.add 5 6 7) := by decide
/-- V5. -/
theorem test_decode_sub : decode 0x407302B3#32 = .ok (.sub 5 6 7) := by decide
/-- V9. -/
theorem test_decode_mul : decode 0x027302B3#32 = .ok (.mul 5 6 7) := by decide
/-- V15. -/
theorem test_decode_and : decode 0x007372B3#32 = .ok (.and 5 6 7) := by decide
/-- V18. -/
theorem test_decode_sll : decode 0x007312B3#32 = .ok (.sll 5 6 7) := by decide
/-- V26. -/
theorem test_decode_srl : decode 0x007352B3#32 = .ok (.srl 5 6 7) := by decide
/-- V31. -/
theorem test_decode_sra : decode 0x407352B3#32 = .ok (.sra 5 6 7) := by decide
/-- V38. -/
theorem test_decode_addRw : decode 0x007302BB#32 = .ok (.addRw 5 6 7) := by decide
/-- V42. -/
theorem test_decode_subRw : decode 0x407302BB#32 = .ok (.subRw 5 6 7) := by decide
/-- V46. -/
theorem test_decode_mulRw : decode 0x027302BB#32 = .ok (.mulRw 5 6 7) := by decide
/-- V52. -/
theorem test_decode_andRw : decode 0x007372BB#32 = .ok (.andRw 5 6 7) := by decide
/-- V55. -/
theorem test_decode_sllw : decode 0x007312BB#32 = .ok (.sllw 5 6 7) := by decide
/-- V62. -/
theorem test_decode_srlRw : decode 0x007352BB#32 = .ok (.srlRw 5 6 7) := by decide
/-- V68. -/
theorem test_decode_sraw : decode 0x407352BB#32 = .ok (.sraw 5 6 7) := by decide
/-- V85. -/
theorem test_decode_addi : decode 0x80030293#32 = .ok (.addi 5 6 0x800#12) := by decide
/-- V89. -/
theorem test_decode_srli : decode 0x01F35293#32 = .ok (.srli 5 6 31#5) := by decide
/-- V99. -/
theorem test_decode_lb : decode 0x00730283#32 = .ok (.lb 5 6 7#12) := by decide
/-- V107. -/
theorem test_decode_lw : decode 0x00C32283#32 = .ok (.lw 5 6 12#12) := by decide
/-- V112. -/
theorem test_decode_ld : decode 0xFF833283#32 = .ok (.ld 5 6 0xFF8#12) := by decide
/-- V139. -/
theorem test_decode_sb : decode 0xFE730FA3#32 = .ok (.sb 7 6 0xFFF#12) := by decide
/-- V134. -/
theorem test_decode_sw : decode 0x007322A3#32 = .ok (.sw 7 6 5#12) := by decide
/-- V144. -/
theorem test_decode_sd : decode 0x80733023#32 = .ok (.sd 7 6 0x800#12) := by decide
/-- V157. -/
theorem test_decode_beq : decode 0x7E730FE3#32 = .ok (.beq 6 7 0x7FF#12) := by decide
/-- V164. -/
theorem test_decode_bne : decode 0xFE731C63#32 = .ok (.bne 6 7 0xFF8#12) := by decide
/-- V168. -/
theorem test_decode_blt : decode 0x00734463#32 = .ok (.blt 6 7 8#12) := by decide
/-- V179. -/
theorem test_decode_bge : decode 0xFE735863#32 = .ok (.bge 6 7 0xFF0#12) := by decide
/-- V202. -/
theorem test_decode_jal : decode 0xFF5FFFEF#32 = .ok (.jal 31 0x1FFFF4#21) := by decide
/-- V199. -/
theorem test_decode_jal_bit20 : decode 0xFFF7F06F#32 = .ok (.jal 0 0x17FFFE#21) := by decide
/-- V193. -/
theorem test_decode_jal_bit11 : decode 0x001002EF#32 = .ok (.jal 5 0x800#21) := by decide
/-- V216. -/
theorem test_decode_jalr : decode 0x800302E7#32 = .ok (.jalr 5 6 0x800#12) := by decide
/-- V213. -/
theorem test_decode_jalr_funct3 : decode 0x000322E7#32 = .ok (.jalr 5 6 0#12) := by decide

/-- V226, V227, V219: no unit takes these opcodes. -/
theorem test_decode_rejects_opcode :
    decode 0x00000000#32 = .error (.opcode 0#7) ∧ decode 0xFFFFFFFF#32 = .error (.opcode 0x7F#7)
      ∧ decode 0x000012B7#32 = .error (.opcode 0x37#7) := by decide
/-- V235, V240. -/
theorem test_decode_rejects_funct_pair :
    decode 0x427302B3#32 = .error (.functPair 0#3 0b0100001#7) ∧ decode 0x027352BB#32 = .error (.functPair 5#3 1#7) := by
  decide
/-- V250, V251. -/
theorem test_decode_rejects_funct7 :
    decode 0x40335293#32 = .error (.funct7 0b0100000#7) ∧ decode 0x02035293#32 = .error (.funct7 1#7) := by decide
/-- V244, V126, V149, V182. -/
theorem test_decode_rejects_funct3 :
    decode 0x00331293#32 = .error (.funct3 1#3) ∧ decode 0x00031283#32 = .error (.funct3 1#3)
      ∧ decode 0x00731023#32 = .error (.funct3 1#3) ∧ decode 0x00732463#32 = .error (.funct3 2#3) := by decide
/-- 20_memory.md R54: the first byte in storage order is the low one; V1. -/
theorem test_decode_bytes : decodeBytes [0xB3, 0x02, 0x73, 0x00, 0xFF] = .ok (.add 5 6 7, [0xFF]) := by decide
/-- V103, as the opcode table numbers its bits. -/
theorem test_decode_table_word : decodeTableWord 32 0x00032283 = some (.lw 5 6 0) := by decide
/-- A byte string shorter than a word holds no instruction (R80). -/
theorem test_decode_bytes_too_short : decodeBytes [0xB3, 0x02, 0x73] = .error .tooShort := by decide
/-- 30_encoding.md R102: no two rows of the opcode map have a word in common. -/
theorem test_opcode_rows_disjoint :
    opcodeTable.Pairwise (fun a b => a.2.1 &&& (a.2.2 &&& b.2.2) ≠ b.2.1 &&& (a.2.2 &&& b.2.2)) := by decide
/-- The encoder's words: V1, V144, V199, V216. -/
theorem test_encode :
    encode (.add 5 6 7) = 0x007302B3#32 ∧ encode (.sd 7 6 0x800#12) = 0x80733023#32
      ∧ encode (.jal 0 0x17FFFE#21) = 0xFFF7F06F#32 ∧ encode (.jalr 5 6 0x800#12) = 0x800302E7#32 := by decide
/-! ### One step of each instruction -/

/-- V1: ADD x5, x6, x7. -/
theorem test_add_1 :
    after (start 0x007302B3#32 [(6, 0xFFFFFFFFFFFFFFFF#64), (7, 0x0000000000000001#64)]) lookIR = some (0x0000000000000000#64, 0x1004#64, 1#64, 1#64) := by
  decide
/-- V2: ADD x5, x6, x7. -/
theorem test_add_2 :
    after (start 0x007302B3#32 [(6, 0x7FFFFFFFFFFFFFFF#64), (7, 0x0000000000000001#64)]) lookIR = some (0x8000000000000000#64, 0x1004#64, 1#64, 1#64) := by
  decide
/-- V5: SUB x5, x6, x7. -/
theorem test_sub_1 :
    after (start 0x407302B3#32 [(6, 0x0000000000000000#64), (7, 0x0000000000000001#64)]) lookIR = some (0xFFFFFFFFFFFFFFFF#64, 0x1004#64, 1#64, 1#64) := by
  decide
/-- V6: SUB x5, x6, x7. -/
theorem test_sub_2 :
    after (start 0x407302B3#32 [(6, 0x8000000000000000#64), (7, 0x0000000000000001#64)]) lookIR = some (0x7FFFFFFFFFFFFFFF#64, 0x1004#64, 1#64, 1#64) := by
  decide
/-- V11: MUL x5, x6, x7. -/
theorem test_mul_1 :
    after (start 0x027302B3#32 [(6, 0x00000000FFFFFFFF#64), (7, 0x00000000FFFFFFFF#64)]) lookIR = some (0xFFFFFFFE00000001#64, 0x1004#64, 1#64, 1#64) := by
  decide
/-- V14: MUL x5, x6, x7. -/
theorem test_mul_2 :
    after (start 0x027302B3#32 [(6, 0xFFFFFFFFFFFFFFFE#64), (7, 0x0000000000000003#64)]) lookIR = some (0xFFFFFFFFFFFFFFFA#64, 0x1004#64, 1#64, 1#64) := by
  decide
/-- V15: AND x5, x6, x7. -/
theorem test_and_1 :
    after (start 0x007372B3#32 [(6, 0xFF00FF00FF00FF00#64), (7, 0x0FF00FF00FF00FF0#64)]) lookIR = some (0x0F000F000F000F00#64, 0x1004#64, 1#64, 1#64) := by
  decide
/-- V17: AND x5, x6, x7. -/
theorem test_and_2 :
    after (start 0x007372B3#32 [(6, 0x123456789ABCDEF0#64), (7, 0xFFFFFFFFFFFFFFFF#64)]) lookIR = some (0x123456789ABCDEF0#64, 0x1004#64, 1#64, 1#64) := by
  decide
/-- V18: SLL x5, x6, x7. -/
theorem test_sll_1 :
    after (start 0x007312B3#32 [(6, 0x0000000000000001#64), (7, 0x000000000000003F#64)]) lookIR = some (0x8000000000000000#64, 0x1004#64, 1#64, 1#64) := by
  decide
/-- V22: SLL x5, x6, x7. -/
theorem test_sll_2 :
    after (start 0x007312B3#32 [(6, 0x0000000000000001#64), (7, 0x0000000000000041#64)]) lookIR = some (0x0000000000000002#64, 0x1004#64, 1#64, 1#64) := by
  decide
/-- V28: SRL x5, x6, x7. -/
theorem test_srl_1 :
    after (start 0x007352B3#32 [(6, 0xFFFFFFFFFFFFFFFF#64), (7, 0x0000000000000004#64)]) lookIR = some (0x0FFFFFFFFFFFFFFF#64, 0x1004#64, 1#64, 1#64) := by
  decide
/-- V27: SRL x5, x6, x7. -/
theorem test_srl_2 :
    after (start 0x007352B3#32 [(6, 0xFFFFFFFFFFFFFFFF#64), (7, 0x0000000000000040#64)]) lookIR = some (0xFFFFFFFFFFFFFFFF#64, 0x1004#64, 1#64, 1#64) := by
  decide
/-- V31: SRA x5, x6, x7. -/
theorem test_sra_1 :
    after (start 0x407352B3#32 [(6, 0x8000000000000000#64), (7, 0x000000000000003F#64)]) lookIR = some (0xFFFFFFFFFFFFFFFF#64, 0x1004#64, 1#64, 1#64) := by
  decide
/-- V36: SRA x5, x6, x7. -/
theorem test_sra_2 :
    after (start 0x407352B3#32 [(6, 0x0000000180000000#64), (7, 0x000000000000001F#64)]) lookIR = some (0x0000000000000003#64, 0x1004#64, 1#64, 1#64) := by
  decide
/-- V40: ADD.RW x5, x6, x7. -/
theorem test_addRw_1 :
    after (start 0x007302BB#32 [(6, 0x000000007FFFFFFF#64), (7, 0x0000000000000001#64)]) lookIR = some (0x0000000080000000#64, 0x1004#64, 1#64, 1#64) := by
  decide
/-- V38: ADD.RW x5, x6, x7. -/
theorem test_addRw_2 :
    after (start 0x007302BB#32 [(6, 0xFFFFFFFFFFFFFFFF#64), (7, 0x0000000000000001#64)]) lookIR = some (0x0000000000000000#64, 0x1004#64, 1#64, 1#64) := by
  decide
/-- V45: SUB.RW x5, x6, x7. -/
theorem test_subRw_1 :
    after (start 0x407302BB#32 [(6, 0x0000000080000000#64), (7, 0x0000000000000001#64)]) lookIR = some (0x000000007FFFFFFF#64, 0x1004#64, 1#64, 1#64) := by
  decide
/-- V42: SUB.RW x5, x6, x7. -/
theorem test_subRw_2 :
    after (start 0x407302BB#32 [(6, 0x0000000000000000#64), (7, 0x0000000000000001#64)]) lookIR = some (0xFFFFFFFFFFFFFFFF#64, 0x1004#64, 1#64, 1#64) := by
  decide
/-- V48: MUL.RW x5, x6, x7. -/
theorem test_mulRw_1 :
    after (start 0x027302BB#32 [(6, 0x00000000FFFFFFFF#64), (7, 0x00000000FFFFFFFF#64)]) lookIR = some (0xFFFFFFFE00000001#64, 0x1004#64, 1#64, 1#64) := by
  decide
/-- V51: MUL.RW x5, x6, x7. -/
theorem test_mulRw_2 :
    after (start 0x027302BB#32 [(6, 0xFFFFFFFFFFFFFFFE#64), (7, 0x0000000000000003#64)]) lookIR = some (0xFFFFFFFFFFFFFFFA#64, 0x1004#64, 1#64, 1#64) := by
  decide
/-- V52: AND.RW x5, x6, x7. -/
theorem test_andRw_1 :
    after (start 0x007372BB#32 [(6, 0xFF00FF00FF00FF00#64), (7, 0x0FF00FF00FF00FF0#64)]) lookIR = some (0x0F000F000F000F00#64, 0x1004#64, 1#64, 1#64) := by
  decide
/-- V54: AND.RW x5, x6, x7. -/
theorem test_andRw_2 :
    after (start 0x007372BB#32 [(6, 0x123456789ABCDEF0#64), (7, 0xFFFFFFFFFFFFFFFF#64)]) lookIR = some (0x123456789ABCDEF0#64, 0x1004#64, 1#64, 1#64) := by
  decide
/-- V57: SLLW x5, x6, x7. -/
theorem test_sllw_1 :
    after (start 0x007312BB#32 [(6, 0x0000000140000001#64), (7, 0x0000000000000001#64)]) lookIR = some (0xFFFFFFFF80000002#64, 0x1004#64, 1#64, 1#64) := by
  decide
/-- V58: SLLW x5, x6, x7. -/
theorem test_sllw_2 :
    after (start 0x007312BB#32 [(6, 0xFFFFFFFFFFFFFFFF#64), (7, 0x0000000000000004#64)]) lookIR = some (0xFFFFFFFFFFFFFFF0#64, 0x1004#64, 1#64, 1#64) := by
  decide
/-- V62: SLLW x5, x6, x7. -/
theorem test_srlRw_1 :
    after (start 0x007312BB#32 [(6, 0x0000000000000001#64), (7, 0x000000000000001F#64)]) lookIR = some (0xFFFFFFFF80000000#64, 0x1004#64, 1#64, 1#64) := by
  decide
/-- V65: SRL.RW x5, x6, x7. -/
theorem test_srlRw_2 :
    after (start 0x007352BB#32 [(6, 0xFFFFFFFFFFFFFFFF#64), (7, 0x0000000000000004#64)]) lookIR = some (0x0FFFFFFFFFFFFFFF#64, 0x1004#64, 1#64, 1#64) := by
  decide
/-- V73: SRAW x5, x6, x7. -/
theorem test_sraw_1 :
    after (start 0x407352BB#32 [(6, 0x0000000180000000#64), (7, 0x000000000000001F#64)]) lookIR = some (0xFFFFFFFFFFFFFFFF#64, 0x1004#64, 1#64, 1#64) := by
  decide
/-- V74: SRAW x5, x6, x7. -/
theorem test_sraw_2 :
    after (start 0x407352BB#32 [(6, 0x0000000040000000#64), (7, 0x0000000000000021#64)]) lookIR = some (0x0000000020000000#64, 0x1004#64, 1#64, 1#64) := by
  decide
/-- V85: ADDI x5, x6, -2048. -/
theorem test_addi_1 :
    after (start 0x80030293#32 [(6, 0x0000000000000064#64)]) lookIR = some (0xFFFFFFFFFFFFF864#64, 0x1004#64, 1#64, 1#64) := by
  decide
/-- V83: ADDI x5, x6, 1. -/
theorem test_addi_2 :
    after (start 0x00130293#32 [(6, 0xFFFFFFFFFFFFFFFF#64)]) lookIR = some (0x0000000000000000#64, 0x1004#64, 1#64, 1#64) := by
  decide
/-- V89: SRLI x5, x6, 31. -/
theorem test_srli_1 :
    after (start 0x01F35293#32 [(6, 0x8000000000000000#64)]) lookIR = some (0x0000000100000000#64, 0x1004#64, 1#64, 1#64) := by
  decide
/-- V90: SRLI x5, x6, 4. -/
theorem test_srli_2 :
    after (start 0x00435293#32 [(6, 0xFFFFFFFFFFFFFFFF#64)]) lookIR = some (0x0FFFFFFFFFFFFFFF#64, 0x1004#64, 1#64, 1#64) := by
  decide
/-- V100: LB x5, 8(x6). -/
theorem test_lb_1 :
    after (startAt 0#64 0x1000#64 0x00830283#32 [(6, 0x0000000000007F00#64)] loadBytes) lookLoad
      = some (0x0000000000000080#64, 0x1004#64, 1#64, 1#64) := by decide
/-- V108: LW x5, 6(x6). -/
theorem test_lw_1 :
    after (startAt 0#64 0x1000#64 0x00632283#32 [(6, 0x0000000000007F00#64)] loadBytes) lookLoad
      = some (0x0000000000801122#64, 0x1004#64, 1#64, 1#64) := by decide
/-- V110: LD x5, 8(x6). -/
theorem test_ld_1 :
    after (startAt 0#64 0x1000#64 0x00833283#32 [(6, 0x0000000000007F00#64)] loadBytes) lookLoad
      = some (0xFFFFFFFF80000080#64, 0x1004#64, 1#64, 1#64) := by decide
/-- V114: LB x5, -1(x6). -/
theorem test_lb_2 :
    after (start 0xFFF30283#32 [(6, 0x0000000000007000#64)]) State.status = some (.faulted (.memoryFault .load 0x6FFF#64 1)) := by
  decide
/-- V116: LW x5, -2(x6). -/
theorem test_lw_2 :
    after (start 0xFFE32283#32 [(6, 0x0000000000008000#64)]) State.status = some (.faulted (.memoryFault .load 0x7FFE#64 4)) := by
  decide
/-- V120: LD x5, -4(x6). -/
theorem test_ld_2 :
    after (start 0xFFC33283#32 [(6, 0x0000000000000000#64)]) State.status = some (.faulted (.memoryFault .load 0xFFFFFFFFFFFFFFFC#64 8)) := by
  decide
/-- V132: SB x7, 15(x6). -/
theorem test_sb_1 :
    after (startAt 0#64 0x1000#64 0x007307A3#32 [(6, 0x0000000000007F00#64), (7, 0x1122334455667788#64)] storeBytes) lookStore
      = some ([0xAA, 0xAA, 0xAA, 0xAA, 0xAA, 0xAA, 0xAA, 0xAA, 0xAA, 0xAA, 0xAA, 0xAA, 0xAA, 0xAA, 0xAA, 0x88],
        0x1004#64, 1#64) := by decide
/-- V134: SW x7, 5(x6). -/
theorem test_sw_1 :
    after (startAt 0#64 0x1000#64 0x007322A3#32 [(6, 0x0000000000007F00#64), (7, 0x1122334455667788#64)] storeBytes) lookStore
      = some ([0xAA, 0xAA, 0xAA, 0xAA, 0xAA, 0x88, 0x77, 0x66, 0x55, 0xAA, 0xAA, 0xAA, 0xAA, 0xAA, 0xAA, 0xAA],
        0x1004#64, 1#64) := by decide
/-- V137: SD x7, 3(x6). -/
theorem test_sd_1 :
    after (startAt 0#64 0x1000#64 0x007331A3#32 [(6, 0x0000000000007F00#64), (7, 0x1122334455667788#64)] storeBytes) lookStore
      = some ([0xAA, 0xAA, 0xAA, 0x88, 0x77, 0x66, 0x55, 0x44, 0x33, 0x22, 0x11, 0xAA, 0xAA, 0xAA, 0xAA, 0xAA],
        0x1004#64, 1#64) := by decide
/-- V140: SB x7, 0(x6). -/
theorem test_sb_2 :
    after (start 0x00730023#32 [(6, 0x0000000000008000#64)]) State.status = some (.faulted (.memoryFault .store 0x8000#64 1)) := by
  decide
/-- V141: SW x7, -2(x6). -/
theorem test_sw_2 :
    after (start 0xFE732F23#32 [(6, 0x0000000000008000#64)]) State.status = some (.faulted (.memoryFault .store 0x7FFE#64 4)) := by
  decide
/-- V145: SD x7, 1(x6). -/
theorem test_sd_2 :
    after (start 0x007330A3#32 [(6, 0xFFFFFFFFFFFFFFFF#64)]) State.status = some (.faulted (.memoryFault .store 0x0#64 8)) := by
  decide
/-- V156: BEQ x6, x7, -2048 at pc = 0x1000. -/
theorem test_beq_1 :
    after (startJump 0x1000#64 0x80730063#32 [(6, 0x0000000000000001#64), (7, 0x0000000000000001#64)]) lookBranch
      = some (0x800#64, 1#64, 0#64, 1#64) := by decide
/-- V163: BEQ x6, x7, 8 at pc = 0x1000. -/
theorem test_beq_2 :
    after (startJump 0x1000#64 0x00730463#32 [(6, 0x8000000000000000#64), (7, 0x0000000000000000#64)]) lookBranch
      = some (0x1004#64, 0#64, 1#64, 1#64) := by decide
/-- V167: BNE x6, x7, -4 at pc = 0x1000. -/
theorem test_bne_1 :
    after (startJump 0x1000#64 0xFE731E63#32 [(6, 0xFFFFFFFFFFFFFFFF#64), (7, 0x0000000000000001#64)]) lookBranch
      = some (0xFFC#64, 1#64, 0#64, 1#64) := by decide
/-- V165: BNE x6, x7, -8 at pc = 0x1000. -/
theorem test_bne_2 :
    after (startJump 0x1000#64 0xFE731C63#32 [(6, 0x0000000000000005#64), (7, 0x0000000000000005#64)]) lookBranch
      = some (0x1004#64, 0#64, 1#64, 1#64) := by decide
/-- V170: BLT x6, x7, 8 at pc = 0x1000. -/
theorem test_blt_1 :
    after (startJump 0x1000#64 0x00734463#32 [(6, 0x8000000000000000#64), (7, 0x7FFFFFFFFFFFFFFF#64)]) lookBranch
      = some (0x1008#64, 1#64, 0#64, 1#64) := by decide
/-- V173: BLT x6, x7, 8 at pc = 0x1000. -/
theorem test_blt_2 :
    after (startJump 0x1000#64 0x00734463#32 [(6, 0x7FFFFFFFFFFFFFFF#64), (7, 0x8000000000000000#64)]) lookBranch
      = some (0x1004#64, 0#64, 1#64, 1#64) := by decide
/-- V176: BGE x6, x7, 8 at pc = 0x1000. -/
theorem test_bge_1 :
    after (startJump 0x1000#64 0x00735463#32 [(6, 0x0000000000000003#64), (7, 0x0000000000000003#64)]) lookBranch
      = some (0x1008#64, 1#64, 0#64, 1#64) := by decide
/-- V178: BGE x6, x7, 8 at pc = 0x1000. -/
theorem test_bge_2 :
    after (startJump 0x1000#64 0x00735463#32 [(6, 0x8000000000000000#64), (7, 0x7FFFFFFFFFFFFFFF#64)]) lookBranch
      = some (0x1004#64, 0#64, 1#64, 1#64) := by decide
/-- V193: JAL x5, 2048. -/
theorem test_jal_1 :
    after (startJump 0x1000#64 0x001002EF#32 []) lookJump = some (0x1800#64, 0#64, 0x1004#64, 1#64) := by decide
/-- V199: JAL x0, -524290, no link. -/
theorem test_jal_2 :
    after (startJump 0x100000#64 0xFFF7F06F#32 []) lookJump = some (0x7FFFE#64, 0#64, 0#64, 1#64) := by decide
/-- V209: JALR x5, 0(x1): the old `x[1]` is the target, the link goes to `x[1]`. -/
theorem test_jalr_1 :
    after (startJump 0x1000#64 0x000082E7#32 [(1, 0xDEAD0000#64), (5, 0x5555#64)]) lookJump
      = some (0xDEAD0000#64, 0x1004#64, 0x5555#64, 1#64) := by decide
/-- V211: JALR x0, 1(x6): bit 0 kept, no link. -/
theorem test_jalr_2 :
    after (startJump 0x1000#64 0x00130067#32 [(1, 0xDEAD0000#64), (5, 0x5555#64), (6, 0x2000#64)]) lookJump
      = some (0x2001#64, 0xDEAD0000#64, 0x5555#64, 1#64) := by decide

/-! ### The step around an instruction -/

/-- V254, V261: the sentinel is tested first. -/
theorem test_stop :
    after (startAt 0x1000#64 0x1000#64 0x007302B3#32 [] []) (fun t => (t.status, t.pc, t.ctr.i_count))
        = some (.stopped, 0x1000#64, 0#64)
      ∧ after (startAt 0x1003#64 0x1003#64 0x007302B3#32 [] []) State.status = some .stopped := by decide
/-- V257: misaligned and not served. -/
theorem test_fetch_misaligned :
    after { start 0x007302B3#32 [] with pc := 0x2003#64 } State.status = some (.faulted (.fetchMisaligned 0x2003#64)) := by
  decide
/-- V259: one word past the code. -/
theorem test_fetch_fault :
    after { start 0x007302B3#32 [] with pc := 0x1004#64 } State.status = some (.faulted (.fetchFault 0x1004#64)) := by
  decide
/-- V221: the word of the standard ECALL. -/
theorem test_unsupported :
    after (start 0x00000073#32 []) State.status = some (.faulted (.unsupportedInstruction (.opcode 0x73#7))) := by
  decide
/-- 20_memory.md R66: a byte stored to is not fetched. -/
theorem test_fetch_of_stored :
    step { start 0x007302B3#32 [] with stored := [0x1003] } = .refused .fetchOfStoredByte := rfl
/-- 70_reset_and_hazards.md R264: the example of the reset. -/
theorem test_reset_example :
    State.reset.readReg 1 = 0#64 ∧ State.reset.readReg 2 = 0x8000#64 ∧ State.reset.pc = 0x1000#64
      ∧ (∀ r : RegIdx, r ≠ 2 → State.reset.readReg r = 0#64) ∧ State.reset.ctr = Counters.zero
      ∧ State.reset.status = .running := by decide
/-- Log 4: a placed word is the first instruction after reset; V94 from the reset state. -/
theorem test_with_fetch_word :
    after (State.reset.withFetchWord 32 0x00550513) (fun t => (t.readReg 10, t.pc)) = some (5#64, 0x1004#64) := by
  decide
/-- Log 4: where `pc` is the sentinel and misaligned, the word goes where a fetch is possible. -/
theorem test_with_fetch_word_moves :
    after ((startAt 0x1000#64 0x1002#64 0#32 [] []).withFetchWord 32 0x00550513) (fun t => (t.readReg 10, t.pc))
      = some (5#64, 0x1008#64) := by decide
/-- T4 with P0: ADDI, then the sentinel; `emulate` answers 15 and the counts 1 and 1. -/
theorem test_emulate_T4 :
    (match emulate 3 (startAt 0x1004#64 0x1000#64 0x00550513#32 [(10, 10#64)] []) with
      | .next t => readOut t
      | .fault _ => none
      | .refused _ => none)
      = some (.result 15#64 { Counters.zero with i_count := 1, ir_count := 1 }) := by decide
/-! ### Witnesses: states and operands that meet the hypotheses of the statements -/

/-- A state in the middle of a run: one byte of the stack written, one instruction counted, `ADD` at `pc`. -/
def midRun : State :=
  { startAt 0xDEAD0000#64 0x1000#64 0x007302B3#32 [(6, 0x7F00#64), (7, 0x55#64)] [(0x7F00, 0x55)] with
    stored := [0x7F00]
    ctr := { Counters.zero with i_count := 1, st_count := 1 } }

/-- `midRun` with another word at `pc`. -/
def midRunAt (w : IWord) : State := { midRun with code := putCode [] 0x1000 (wordBytes w) }

theorem test_inv_midRun : midRun.Inv :=
  ⟨by decide, by decide, by decide, by decide, by decide, by decide, fun _ => by decide⟩

/-- A Faulted state whose counters do not add up has the invariant: it promises nothing of them (60_exceptions.md R226). -/
theorem test_inv_faulted_any_counters :
    State.Inv { midRun with status := .faulted (.fetchFault 0#64), ctr := { Counters.zero with i_count := 7#64 } } :=
  ⟨by decide, by decide, by decide, by decide, by decide, by decide, fun h => absurd rfl (h _)⟩

theorem test_fetches_midRun (w : IWord) (h : iFetch (midRunAt w).code 0x1000 = some w) : FetchesWord (midRunAt w) w :=
  ⟨rfl, (by decide : midRun.pc ≠ midRun.platform.stopSentinel), (by decide : midRun.pc.toNat % 4 = 0), h,
    (by decide : ∀ k, k < 4 → midRun.pc.toNat + k ∉ midRun.stored)⟩

/-- The bytes of the region the stack statements turn on: both its ends, and just outside them. -/
theorem test_witness_HostInitGivesResetState :
    inStack State.reset.platform 0x7000 = true ∧ inStack State.reset.platform 0x7FFF = true
      ∧ inStack State.reset.platform 0x6FFF = false ∧ inStack State.reset.platform 0x8000 = false
      ∧ (∀ r : RegIdx, r = 0 ∨ r = 3 ∨ r = 9 ∨ r = 14 ∨ r = 31 → r ≠ 1 ∧ r ≠ 2 ∧ r ≠ 10 ∧ r ≠ 11 ∧ r ≠ 12 ∧ r ≠ 13) := by
  decide

/-- Each region's first and last byte, the last beyond the initial bytes listed, and an address of no region. -/
theorem test_witness_LoadedImageIsRead :
    twoRegions.wellFormed = true ∧ (∃ r ∈ twoRegions.image, 0 < r.size ∧ r.init.getD 0 0 = 0x11)
      ∧ (∃ r ∈ twoRegions.image, 15 < r.size ∧ r.init.getD 15 0 = 0)
      ∧ inImage twoRegions 0x2010 = false ∧ inImage twoRegions 0x7000 = false := by decide

theorem test_witness_ReadOutShowsOnlyResultOrRecord :
    midRun.status = .running ∧ { midRun with status := .stopped }.status = .stopped
      ∧ { midRun with status := .faulted (.fetchFault 0#64) }.status = .faulted (.fetchFault 0#64)
      ∧ { State.reset with status := .faulted (.fetchFault 0#64) }.status = .faulted (.fetchFault 0#64) := by decide

/-- Log 21, the model's choice: started on a terminal state, `emulate` answers it unchanged. -/
theorem test_emulate_terminal :
    emulate 4 { midRun with status := .stopped } = .next { midRun with status := .stopped } := rfl

/-- One step of fuel is enough for a state at its sentinel; the statement's n is 1 and its m 5. -/
theorem test_witness_EmulateEndsOnce :
    emulate 1 { midRun with pc := 0xDEAD0000#64 } = .next { midRun with pc := 0xDEAD0000#64, status := .stopped } := rfl

theorem test_witness_StepAtSentinelStops :
    { midRun with pc := 0xDEAD0000#64 }.status = .running
      ∧ { midRun with pc := 0xDEAD0000#64 }.pc = midRun.platform.stopSentinel := by decide

/-- The step of the state of the witness before answers a Stopped state. -/
theorem test_witness_OnlyTheSentinelStops :
    after { midRun with pc := 0xDEAD0000#64 } State.status = some .stopped := by decide

theorem test_witness_MisalignedFetchFaults :
    { midRun with pc := 0x1001#64 }.status = .running ∧ { midRun with pc := 0x1001#64 }.pc ≠ midRun.platform.stopSentinel
      ∧ { midRun with pc := 0x1001#64 }.pc.toNat % 4 ≠ 0 := by decide

theorem test_witness_UnservedFetchFaults :
    { midRun with pc := 0x1004#64 }.status = .running ∧ { midRun with pc := 0x1004#64 }.pc ≠ midRun.platform.stopSentinel
      ∧ { midRun with pc := 0x1004#64 }.pc.toNat % 4 = 0
      ∧ iFetch midRun.code { midRun with pc := 0x1004#64 }.pc.toNat = none := by decide

/-- V240: a funct pair of no row. -/
theorem test_witness_UnsupportedWordFaults :
    FetchesWord (midRunAt 0x027352BB#32) 0x027352BB#32 ∧ decode 0x027352BB#32 = .error (.functPair 5#3 1#7) :=
  ⟨test_fetches_midRun _ (by decide), by decide⟩

theorem test_witness_StepRunsDecodedInstruction :
    FetchesWord (midRunAt 0x007302B3#32) 0x007302B3#32 ∧ decode 0x007302B3#32 = .ok (.add 5 6 7) :=
  ⟨test_fetches_midRun _ (by decide), by decide⟩

/-- SD to 0x7F01: the words at 0x7F00 and 0x7F08 each share a byte with it, the ends of the two overlap conditions. -/
theorem test_witness_FetchOfStoredByteIsRefused :
    accessOf midRun (.sd 7 6 1#12) = some (.store, 0x7F01#64, 8) ∧ midRun.status = .running
      ∧ after midRun State.status = some .running
      ∧ (match exec (.sd 7 6 1#12) midRun with | .next t => t.status | .fault _ => .stopped | .refused _ => .stopped) = .running
      ∧ iFetch (putCode [] 0x7F00 (wordBytes 0#32)) 0x7F00 = some 0#32
      ∧ iFetch (putCode [] 0x7F08 (wordBytes 0#32)) 0x7F08 = some 0#32
      ∧ 0x7F00 < 0x7F01 + 8 ∧ 0x7F01 < 0x7F00 + 4 ∧ 0x7F08 < 0x7F01 + 8 ∧ 0x7F01 < 0x7F08 + 4 := by decide

theorem test_witness_TerminalStatusesHaveNoNextState :
    { midRun with status := .stopped }.status ≠ .running
      ∧ { midRun with status := .faulted (.fetchFault 0#64) }.status ≠ .running := by decide

theorem test_witness_FetchIsLittleEndian :
    codeByte midRun.code 0x1000 = some 0xB3#8 ∧ codeByte midRun.code 0x1001 = some 0x02#8
      ∧ codeByte midRun.code 0x1002 = some 0x73#8 ∧ codeByte midRun.code 0x1003 = some 0x00#8 := by decide

theorem test_witness_PlacedWordIsRun :
    cellsRising midRun.code = true ∧ decode 0x00032283#32 = .ok (.lw 5 6 0#12) := by decide

/-- The most negative and the most positive JAL offset (V196, V197). -/
theorem test_witness_DecodeOfEncode :
    (Instr.jal 1 0x100000#21).wellFormed = true ∧ (Instr.jal 1 0x0FFFFE#21).wellFormed = true := by decide

/-- Both cases: JALR with funct3 = 111 (V214), and another instruction. -/
theorem test_witness_EncodeOfDecode :
    decode 0x00037067#32 = .ok (.jalr 0 6 0#12) ∧ opcodeOf 0x00037067#32 = opcJalr
      ∧ decode 0x007302B3#32 = .ok (.add 5 6 7) ∧ opcodeOf 0x007302B3#32 ≠ opcJalr := by decide

/-- Every row is selected by its own match word; so every RowDecodesTo statement has words it speaks of. -/
theorem test_witness_DecodeFollowsOpcodeTable :
    ("SRAW", 0x4000503B#32, 0xFE00707F#32) ∈ opcodeTable ∧ ∀ r ∈ opcodeTable, r.2.1 &&& r.2.2 = r.2.1 := by decide

/-- A word for each clause: V219, V240, V244, V250, V126 and V149, V182, V190. -/
theorem test_witness_UnsupportedWordsByUnit :
    (0x000012B7#32).toNat % 2 ^ 7 ∉ [0x33, 0x3B, 0x13, 0x03, 0x23, 0x63, 0x6F, 0x67]
      ∧ (0x027352BB#32).toNat % 2 ^ 7 = 0x3B ∧ ((0x027352BB#32 >>> 25).setWidth 7).toNat = 1
      ∧ ((0x027352BB#32 >>> 12).setWidth 3).toNat = 5
      ∧ (0x00331293#32).toNat % 2 ^ 7 = 0x13 ∧ ((0x00331293#32 >>> 12).setWidth 3).toNat ∉ [0, 5]
      ∧ (0x40335293#32).toNat % 2 ^ 7 = 0x13 ∧ ((0x40335293#32 >>> 12).setWidth 3).toNat = 5
      ∧ ((0x40335293#32 >>> 25).setWidth 7).toNat ≠ 0
      ∧ (0x00031283#32).toNat % 2 ^ 7 = 0x03 ∧ ((0x00031283#32 >>> 12).setWidth 3).toNat ∉ [0, 2, 3]
      ∧ (0x00731023#32).toNat % 2 ^ 7 = 0x23 ∧ ((0x00731023#32 >>> 12).setWidth 3).toNat ∉ [0, 2, 3]
      ∧ (0x00732463#32).toNat % 2 ^ 7 = 0x63 ∧ ((0x00732463#32 >>> 12).setWidth 3).toNat ∉ [0, 1, 4, 5]
      ∧ (0x008000EF#32).toNat % 2 ^ 7 = 0x6F ∧ (0x00037067#32).toNat % 2 ^ 7 = 0x67 := by decide

/-- The ends of both clauses' ranges: 0, 2046, -2, -2048. -/
theorem test_witness_StandardBranchWordOffset :
    [0#13, 0x7FE#13, 0x1FFE#13, 0x1800#13].all (fun off => !off.getLsbD 0) = true
      ∧ (0x7FE#13).toInt = 2046 ∧ (0x1FFE#13).toInt = -2 ∧ (0x1800#13).toInt = -2048 ∧ (0#13).toInt = 0 := by decide

/-- The register statements' two forms: a destination that is written and the one that discards. -/
theorem test_witness_ComputesIR :
    (5 : RegIdx) ≠ 0 ∧ (31 : RegIdx) ≠ 0
      ∧ after (midRunAt 0x00730033#32) (fun t => (t.readReg 0, t.pc)) = some (0#64, 0x1004#64) := by decide

/-- The last valid doubleword of the stack, and each way an access is not valid: past the stack, below it, past 2^64. -/
theorem test_witness_loads :
    BytesValid midRun 0x7FF8#64 8 ∧ BytesValid midRun 0x7000#64 1 ∧ ¬ BytesValid midRun 0x7FF9#64 8
      ∧ ¬ BytesValid midRun 0x7FFD#64 4 ∧ ¬ BytesValid midRun 0x6FFF#64 1 ∧ ¬ BytesValid midRun 0xFFFFFFFFFFFFFFFC#64 8 := by
  simp only [← accessOk_iff_bytesValid]
  decide

/-- The hypotheses of the store statements and of StoreThenLoadGivesBack together, at `x[6]` = 0x7F00. -/
theorem test_witness_stores :
    midRun.Inv ∧ (5 : RegIdx) ≠ 0 ∧ BytesValid midRun (midRun.readReg 6 + (0xF8#12).signExtend 64) 8
      ∧ BytesValid midRun (midRun.readReg 6 + (0xFC#12).signExtend 64) 4
      ∧ BytesValid midRun (midRun.readReg 6 + (0xFF#12).signExtend 64) 1
      ∧ ¬ BytesValid midRun (midRun.readReg 6 + (0xF9#12).signExtend 64) 8
      ∧ ¬ BytesValid midRun (midRun.readReg 6 + (0xFD#12).signExtend 64) 4
      ∧ ¬ BytesValid midRun (midRun.readReg 6 + (0x100#12).signExtend 64) 1 := by
  refine ⟨test_inv_midRun, ?_⟩
  simp only [← accessOk_iff_bytesValid]
  decide

/-- Both outcomes of every branch condition, at the ends of the signed range. -/
theorem test_witness_branches :
    (0x8000000000000000#64).toInt < (0x7FFFFFFFFFFFFFFF#64).toInt ∧ ¬ (3#64).toInt < (3#64).toInt
      ∧ (3#64).toInt ≤ (3#64).toInt ∧ ¬ (0x7FFFFFFFFFFFFFFF#64).toInt ≤ (0x8000000000000000#64).toInt
      ∧ (0x8000000000000000#64) ≠ 0#64 := by decide

/-- V158: a taken branch to 0x1006 leaves a state to which the clause on misaligned targets applies; one to 0x1008
(V168), which is not served, one to which the other does. -/
theorem test_witness_BadTargetFaultsNext :
    after (startJump 0x1000#64 0x00730363#32 [(6, 1#64), (7, 1#64)]) (fun t => (t.status, t.pc))
        = some (.running, 0x1006#64)
      ∧ (0x1006#64).toNat % 4 ≠ 0 ∧ 0x1006#64 ≠ 0xDEAD0000#64
      ∧ after (startJump 0x1000#64 0x00734463#32 [(6, 1#64), (7, 2#64)])
          (fun t => (t.status, t.pc, iFetch t.code t.pc.toNat)) = some (.running, 0x1008#64, none) := by decide

/-- The link clause of JALR, both forms, and of JAL: see test_jal_1, test_jal_2, test_jalr_1, test_jalr_2. -/
theorem test_witness_ReturnThroughSentinelStops :
    FetchesWord ((midRunAt 0x00008067#32).writeReg 1 0xDEAD0000#64) 0x00008067#32
      ∧ ((midRunAt 0x00008067#32).writeReg 1 0xDEAD0000#64).readReg 1 = midRun.platform.stopSentinel :=
  ⟨⟨rfl, by decide, by decide, by decide, by decide⟩, by decide⟩

/-- One instruction that completes from a state with the invariant, in the category of stores, and one in another. -/
theorem test_witness_completed_instruction :
    midRun.Inv ∧ midRun.status = .running
      ∧ (∃ t, exec (.sd 7 6 0#12) midRun = .next t ∧ t.status = .running)
      ∧ accessOf midRun (.sd 7 6 0#12) = some (.store, 0x7F00#64, 8)
      ∧ (∃ t, exec (.add 5 6 7) midRun = .next t ∧ t.status = .running) ∧ accessOf midRun (.add 5 6 7) = none
      ∧ destOf (.add 5 6 7) ≠ some 6 ∧ Category.load ≠ categoryOf midRun (.add 5 6 7) :=
  ⟨test_inv_midRun, rfl, ⟨_, rfl, rfl⟩, by decide, ⟨_, rfl, rfl⟩, rfl, by decide, by decide⟩

/-- A step that answers a next state that is not Faulted, with counters that add up; and the largest `i_count` the second clause admits. -/
theorem test_witness_CounterIdentityKept :
    (∃ t, step midRun = .next t ∧ ∀ f, t.status ≠ .faulted f) ∧ midRun.ctr.balanced = true ∧ midRun.ctr.addUp
      ∧ ({ Counters.zero with i_count := 0xFFFFFFFFFFFFFFFE#64, j_count := 0xFFFFFFFFFFFFFFFE#64 } : Counters).addUp
      ∧ (0xFFFFFFFFFFFFFFFE#64).toNat + 1 < 2 ^ 64 :=
  ⟨⟨_, rfl, fun _ h => nomatch h⟩, by decide, by unfold Counters.addUp; decide, by unfold Counters.addUp; decide, by decide⟩

/-- A fault of an instruction and its condition: SB at one past the stack. -/
theorem test_witness_InstructionFaultsOnlyOnInvalidAccess :
    midRun.status = .running ∧ accessOf midRun (.sb 7 6 0x100#12) = some (.store, 0x8000#64, 1)
      ∧ ¬ BytesValid midRun 0x8000#64 1
      ∧ ∃ t, exec (.sb 7 6 0x100#12) midRun = .next t ∧ t.status = .faulted (.memoryFault .store 0x8000#64 1) := by
  refine ⟨rfl, by decide, ?_, _, rfl, rfl⟩
  rw [← accessOk_iff_bytesValid]
  decide

/-- Both outcomes of a Running engine's step: a next state, and the one refusal. -/
theorem test_witness_EveryInstructionAnswersNextState :
    midRun.status = .running ∧ (∃ t, step midRun = .next t)
      ∧ step { midRun with stored := [0x1003, 0x7F00] } = .refused .fetchOfStoredByte := ⟨rfl, ⟨_, rfl⟩, rfl⟩

/-- Also of SetupIsFixedForTheRun. -/
theorem test_witness_StepKeepsInvariant : midRun.Inv ∧ ∃ t, step midRun = .next t := ⟨test_inv_midRun, _, rfl⟩

theorem test_witness_InitHasInvariant :
    midRun.Inv ∧ twoRegions.wellFormed = true ∧ cellsRising midRun.code = true := ⟨test_inv_midRun, by decide, by decide⟩

end Sys2Proof.Tests
end

section
/-! PROOFS. The invariant, the counters, the destination register, the run and the read-out (10_state.md). -/

namespace Sys2Proof.Machine

/-! ### Counting -/

section Counting

variable (c : Counters) (k q : Category)

@[simp] theorem count_i_count : (c.count k).i_count = c.i_count + 1 := by cases k <;> rfl

/-- One count moves the counter of its own category and no other (10_state.md R30). -/
theorem get_count : (c.count k).get q = if q = k then c.get q + 1 else c.get q := by
  cases k <;> cases q <;> rfl

end Counting

theorem balanced_iff {c : Counters} : c.balanced = true ↔
    c.i_count = c.ir_count + c.ld_count + c.st_count + c.j_count + c.b_taken + c.b_not_taken := decide_eq_true_iff

/-- A count adds 1 on both sides of the identity of R31, modulo 2^64. -/
theorem balanced_count {c : Counters} (k : Category) (h : c.balanced = true) : (c.count k).balanced = true := by
  rw [balanced_iff] at h ⊢
  rw [count_i_count, h]
  cases k <;> simp only [Counters.count] <;> ac_rfl

/-- No category's counter is above `i_count`, so where `i_count` does not wrap the category's does not either. -/
theorem addUp_count {c : Counters} (k : Category) (h : c.addUp) (hwrap : c.i_count.toNat + 1 < 2 ^ 64) :
    (c.count k).addUp := by
  unfold Counters.addUp at h ⊢
  have hsucc : ∀ v : Word, v.toNat ≤ c.i_count.toNat → (v + 1).toNat = v.toNat + 1 := fun v hv =>
    BitVec.toNat_add_of_lt (Nat.lt_of_le_of_lt (Nat.add_le_add_right hv 1) hwrap)
  rw [count_i_count, hsucc _ (Nat.le_refl _)]
  cases k
  all_goals
    simp only [Counters.count]
    rw [hsucc _ (by omega)]
    omega

/-! ### What an instruction has written before it retires -/

section Written

variable {i : Instr} {s s' : State}

theorem Wrote.ctr_eq (h : Wrote i s s') : s'.ctr = s.ctr := by
  obtain ⟨-, rfl | ⟨r, v, -, rfl⟩⟩ | ⟨addr, n, v, -, -, rfl⟩ := h
  · rfl
  · exact writeReg_ctr s r v
  · rfl

/-- A register that is not the destination reads as before (10_state.md R24). -/
theorem Wrote.readReg_eq (h : Wrote i s s') {q : RegIdx} (hq : destOf i ≠ some q) : s'.readReg q = s.readReg q := by
  obtain ⟨-, rfl | ⟨r, v, hr, rfl⟩⟩ | ⟨addr, n, v, -, -, rfl⟩ := h
  · rfl
  · exact readReg_writeReg_ne s r q v (fun e => hq (e ▸ hr))
  · rfl

/-- An instruction that answers a next state has raised a fault, or has written, counted and moved `pc`. -/
theorem exec_next_cases {t : State} (h : exec i s = .next t) :
    (∃ f, t = { s with status := .faulted f })
      ∨ ∃ s' p, Wrote i s s' ∧ t = s'.retire (categoryOf s i) p := by
  obtain ⟨kind, addr, n, -, -, he⟩ | ⟨-, s', p, he, hw⟩ := exec_cases i s
  · rw [he] at h
    cases h
    exact .inl ⟨_, rfl⟩
  · rw [he] at h
    cases h
    exact .inr ⟨s', p, hw, rfl⟩

/-- An instruction that has not faulted has completed: it has written, counted and moved `pc` (40_dispatch.md R126). -/
theorem exec_completes {t : State} (h : exec i s = .next t) (hnf : ∀ f, t.status ≠ .faulted f) :
    ∃ s' p, Wrote i s s' ∧ t = s'.retire (categoryOf s i) p := by
  obtain ⟨f, rfl⟩ | hdone := exec_next_cases h
  · exact absurd rfl (hnf f)
  · exact hdone

theorem not_faulted_of_running (h : s.status = .running) (f : Fault) : s.status ≠ .faulted f := by
  rw [h]
  exact nofun

/-- The counters of a completed instruction: one count under its category. -/
theorem exec_ctr {t : State} (h : exec i s = .next t) (hnf : ∀ f, t.status ≠ .faulted f) :
    t.ctr = s.ctr.count (categoryOf s i) := by
  obtain ⟨s', p, hw, rfl⟩ := exec_completes h hnf
  rw [retire_ctr, hw.ctr_eq]

/-- The counters after a step that does not fault: as before at the sentinel, else one count. -/
theorem step_ctr {t : State} (h : step s = .next t) (hnf : ∀ f, t.status ≠ .faulted f) :
    t.ctr = s.ctr ∨ ∃ k, t.ctr = s.ctr.count k := by
  obtain ⟨-, rfl | ⟨f, rfl⟩ | ⟨i, he⟩⟩ := step_cases h
  · exact .inl rfl
  · exact absurd rfl (hnf f)
  · exact .inr ⟨_, exec_ctr he hnf⟩

end Written

/-! ### The invariant under each operation of the state -/

namespace State.Inv

variable {s : State}

/-- A fault takes the clause on the counters away and leaves the others. -/
theorem faulted (h : s.Inv) (f : Fault) : ({ s with status := .faulted f } : State).Inv :=
  { h with counters := fun hnf => absurd rfl (hnf f) }

theorem stopped (h : s.Inv) (hrun : s.status = .running) : ({ s with status := .stopped } : State).Inv :=
  have hbal := balanced_of_running h hrun
  { h with counters := fun _ => hbal }

theorem writeReg (h : s.Inv) (r : RegIdx) (v : Word) : (s.writeReg r v).Inv where
  mem_wf := by simpa using h.mem_wf
  mem_valid := by simpa using h.mem_valid
  stored_rising := by simpa using h.stored_rising
  stored_valid := by simpa using h.stored_valid
  code_rising := by simpa using h.code_rising
  x0_zero := (writeReg_regs_zero s r v).trans h.x0_zero
  counters := by simpa using h.counters

theorem retire (h : s.Inv) (k : Category) (p : Word) : (s.retire k p).Inv :=
  { h with counters := fun hnf => balanced_count k (h.counters hnf) }

/-- The bytes written and the addresses noted are those of the access, and the access is valid. -/
theorem wroteBytes (h : s.Inv) {addr : Word} {n : Nat} (v : BitVec (8 * n)) (hvalid : BytesValid s addr n) :
    (wroteBytes s addr n v).Inv := by
  obtain ⟨-, hbytes⟩ := hvalid
  have hspan : ∀ a, addr.toNat ≤ a ∧ a < addr.toNat + n → validAddr s.platform a = true := by
    rintro a ⟨hlo, hhi⟩
    have ha := hbytes (a - addr.toNat) (by omega)
    rwa [Nat.add_sub_cancel' hlo] at ha
  exact { h with
    mem_wf := writeBytes_wf _ _ _ h.mem_wf
    mem_valid := fun c hc => (mem_writeBytes hc).elim (hspan c.1) (h.mem_valid c)
    stored_rising := noteAddrs_rising _ _ h.stored_rising
    stored_valid := fun a ha => (mem_noteAddrs.1 ha).elim (h.stored_valid a) (hspan a) }

theorem wrote (h : s.Inv) {i : Instr} {s' : State} (hw : Wrote i s s') : s'.Inv := by
  obtain ⟨-, rfl | ⟨r, v, -, rfl⟩⟩ | ⟨addr, n, v, -, hvalid, rfl⟩ := hw
  · exact h
  · exact h.writeReg r v
  · exact h.wroteBytes v hvalid

theorem exec_next (h : s.Inv) {i : Instr} {t : State} (he : exec i s = .next t) : t.Inv := by
  obtain ⟨f, rfl⟩ | ⟨s', p, hw, rfl⟩ := exec_next_cases he
  · exact h.faulted f
  · exact (h.wrote hw).retire _ p

theorem step_next (h : s.Inv) {t : State} (hs : step s = .next t) : t.Inv := by
  obtain ⟨hrun, rfl | ⟨f, rfl⟩ | ⟨i, he⟩⟩ := step_cases hs
  · exact h.stopped hrun
  · exact h.faulted f
  · exact h.exec_next he

end State.Inv

/-! ### Terminal statuses, the run and the read-out -/

section HostView

variable {s : State}

theorem step_of_stopped (h : s.status = .stopped) : step s = .refused .stepFromStopped := by
  simp [step, engineStep, h]

theorem step_of_faulted {f : Fault} (h : s.status = .faulted f) : step s = .fault f := by
  simp [step, engineStep, h]

theorem emulate_of_terminal (n : Nat) (h : s.status ≠ .running) : emulate n s = .next s := by
  cases n with
  | zero => rfl
  | succ n =>
    cases hs : s.status with
    | running => exact absurd hs h
    | stopped => simp [emulate, hs]
    | faulted f => simp [emulate, hs]

theorem emulate_succ_of_step {u : State} (n : Nat) (h : step s = .next u) : emulate (n + 1) s = emulate n u := by
  obtain ⟨hrun, -⟩ := step_cases h
  simp [emulate, hrun, h]

/-- A run of a Running engine that answers a state begins with a step that answers one. -/
theorem step_of_emulate_succ {t : State} {n : Nat} (hrun : s.status = .running) (h : emulate (n + 1) s = .next t) :
    ∃ u, step s = .next u ∧ emulate n u = .next t := by
  cases hs : step s with
  | next u => exact ⟨u, rfl, (emulate_succ_of_step n hs).symm.trans h⟩
  | fault f => simp [emulate, hrun, hs] at h
  | refused r => simp [emulate, hrun, hs] at h

/-- Once a run has ended, further fuel is not used. -/
theorem emulate_of_ended {n : Nat} {t : State} (h : emulate n s = .next t) (hend : t.status ≠ .running) {m : Nat}
    (hnm : n ≤ m) : emulate m s = .next t := by
  induction n generalizing m s with
  | zero =>
    cases h
    exact emulate_of_terminal m hend
  | succ n ih =>
    by_cases hrun : s.status = .running
    · obtain ⟨u, hstep, hu⟩ := step_of_emulate_succ hrun h
      obtain ⟨m, rfl⟩ := Nat.exists_eq_add_of_le' (Nat.le_trans (Nat.le_add_left 1 n) hnm)
      rw [emulate_succ_of_step m hstep]
      exact ih hu (Nat.le_of_succ_le_succ hnm)
    · rw [emulate_of_terminal _ hrun] at h ⊢
      exact h

theorem readOut_of_running (h : s.status = .running) : readOut s = none := by simp [readOut, h]

theorem readOut_of_stopped (h : s.status = .stopped) : readOut s = some (.result (s.readReg regA0) s.ctr) := by
  simp [readOut, h]

theorem readOut_of_faulted {f : Fault} (h : s.status = .faulted f) : readOut s = some (.record f) := by
  simp [readOut, h]

end HostView

/-! ### The statements -/

/-- Settles O54: each operation a step is made of keeps the invariant, and `step_cases` says there are no others. -/
theorem stepKeepsInvariant : Obligations.StepKeepsInvariant := fun _ _ hinv hstep => hinv.step_next hstep

/-- Settles O5, by induction on the fuel with which the run ended. -/
theorem emulateEndsOnce : Obligations.EmulateEndsOnce := fun _ _ _ _ hnm h hend => emulate_of_ended h hend hnm

/-- Settles O47: the counters of a completed instruction are one count under its category. -/
theorem eachInstructionCountsOneCategory : Obligations.EachInstructionCountsOneCategory := by
  intro i s t _ he hrun
  rw [exec_ctr he (not_faulted_of_running hrun)]
  refine ⟨count_i_count _ _, ?_, fun c hc => ?_⟩
  · rw [get_count, if_pos rfl]
  · rw [get_count, if_neg hc]

/-- Settles O48: a step that does not fault leaves the counters alone or counts once, and one count keeps both forms of
the identity. -/
theorem counterIdentityKept : Obligations.CounterIdentityKept := by
  intro s t hstep hnf
  obtain hctr | ⟨k, hctr⟩ := step_ctr hstep hnf
  · rw [hctr]
    exact ⟨id, fun h _ => h⟩
  · rw [hctr]
    exact ⟨balanced_count k, addUp_count k⟩

/-- Settles O50: what an instruction writes before it retires is its destination, and retiring writes no register. -/
theorem onlyDestinationRegisterChanges : Obligations.OnlyDestinationRegisterChanges := by
  intro i s t _ he hrun
  obtain ⟨s', p, hw, rfl⟩ := exec_completes he (not_faulted_of_running hrun)
  exact ⟨readReg_zero _, fun r hr => hw.readReg_eq hr⟩

/-- Settles O4: the read-out is a function of the status, and at Faulted of the record alone. -/
theorem readOutShowsOnlyResultOrRecord : Obligations.ReadOutShowsOnlyResultOrRecord :=
  ⟨fun _ => readOut_of_running, fun _ => readOut_of_stopped, fun _ _ _ hs ht =>
    ⟨readOut_of_faulted hs, (readOut_of_faulted hs).trans (readOut_of_faulted ht).symm⟩⟩

/-- Settles O13: a step that answers a next state began Running, and the two terminal statuses answer as named. -/
theorem terminalStatusesHaveNoNextState : Obligations.TerminalStatusesHaveNoNextState := by
  intro s hs
  refine ⟨fun t ht => ?_, step_of_stopped, fun f => step_of_faulted⟩
  obtain ⟨hrun, -⟩ := step_cases ht
  exact hs hrun

end Sys2Proof.Machine
end

section
/-! PROOFS. Data memory, the instruction source and the parameters (20_memory.md): what loading and `init` leave in memory,
what a fetch reads and when it is refused, what a store leaves alone, and what a load gives back of it. -/

namespace Sys2Proof.Machine

/-! ### What an instruction leaves alone before it retires -/

section Written

variable {i : Instr} {s s' t : State} {addr : Word} {n : Nat}

theorem Wrote.sameSetup (h : Wrote i s s') : SameSetup s s' := by
  obtain ⟨-, rfl | ⟨r, v, -, rfl⟩⟩ | ⟨addr, n, v, -, -, rfl⟩ := h
  · exact ⟨rfl, rfl, rfl⟩
  · exact ⟨writeReg_status s r v, writeReg_code s r v, writeReg_platform s r v⟩
  · exact ⟨rfl, rfl, rfl⟩

/-- All that a store has written is the n bytes of its own access. -/
theorem Wrote.eq_wroteBytes (h : Wrote i s s') (hacc : accessOf s i = some (.store, addr, n)) :
    ∃ v, s' = wroteBytes s addr n v := by
  obtain ⟨hno, -⟩ | ⟨addr', n', v, hacc', -, rfl⟩ := h
  · exact absurd hacc (hno addr n)
  · rw [hacc] at hacc'
    cases hacc'
    exact ⟨v, rfl⟩

/-- What is no store leaves the cells of data memory and the list of stored-to addresses as they are. -/
theorem Wrote.mem_and_stored_eq (h : Wrote i s s') (hno : ∀ addr n, accessOf s i ≠ some (.store, addr, n)) :
    s'.mem = s.mem ∧ s'.stored = s.stored := by
  obtain ⟨-, rfl | ⟨r, v, -, rfl⟩⟩ | ⟨addr, n, v, hacc, -, -⟩ := h
  · exact ⟨rfl, rfl⟩
  · exact ⟨writeReg_mem s r v, writeReg_stored s r v⟩
  · exact absurd hacc (hno addr n)

/-- Every access is of at least one byte (20_memory.md R59). -/
theorem accessOf_width_pos {kind : AccessKind} (h : accessOf s i = some (kind, addr, n)) : 0 < n := by
  cases i with
  | lb | lw | ld | sb | sw | sd =>
    cases h
    decide
  | _ => cases h

theorem exec_code_platform (h : exec i s = .next t) : t.code = s.code ∧ t.platform = s.platform := by
  obtain ⟨f, rfl⟩ | ⟨s', p, hw, rfl⟩ := exec_next_cases h
  · exact ⟨rfl, rfl⟩
  · exact hw.sameSetup.2

end Written

/-! ### Bytes written and read back -/

section Access

variable {s : State} {n : Nat}

theorem sameMemoryOutside_wroteBytes (addr : Word) (v : BitVec (8 * n)) (hm : Memory.wf s.mem = true) :
    SameMemoryOutside s (wroteBytes s addr n v) addr.toNat n := by
  intro b hb
  rw [readByte_wroteBytes addr n v b hm, if_neg (by omega)]

/-- The n bytes just written, joined, are the value written. -/
theorem leJoin_byteAt_wroteBytes (addr : Word) (v : BitVec (8 * n)) (hm : Memory.wf s.mem = true) :
    leJoin n (byteAt (wroteBytes s addr n v) addr) = v := by
  refine eq_of_leByte_eq fun k hk => ?_
  rw [leByte_leJoin _ hk, byteAt, readByte_wroteBytes addr n v _ hm, if_pos (by omega), Nat.add_sub_cancel_left]

theorem zext64_setWidth_toNat (v : Word) (hn : n ≤ 8) : (zext64 (v.setWidth (8 * n))).toNat = v.toNat % 2 ^ (8 * n) := by
  have hwidth : 8 * n ≤ 64 := by omega
  rw [zext64, BitVec.toNat_setWidth_of_le hwidth, BitVec.toNat_setWidth]

/-- A load of the width and the address of the store before it, at every width n: both complete, and the register gets the
low n bytes stored, zero-extended. -/
theorem load_after_store {rs2 rs1 rd : RegIdx} {imm : BitVec 12} (hm : Memory.wf s.mem = true) (hn : n ≤ 8)
    (hrd : rd ≠ 0) (hvalid : BytesValid s (effAddr s rs1 imm) n) :
    ∃ t u, storeLow n rs2 rs1 imm s = .next t ∧ loadZeroExtended n rd rs1 imm t = .next u
      ∧ u.status = s.status ∧ (u.readReg rd).toNat = (s.readReg rs2).toNat % 2 ^ (8 * n) := by
  refine ⟨_, _, storeLow_valid hvalid, loadZeroExtended_valid hvalid, ?_, ?_⟩
  · simp
  · rw [readReg_retire, readReg_writeReg_same _ _ _ hrd, ← zext64_setWidth_toNat _ hn]
    exact congrArg (fun w => (zext64 w).toNat) (leJoin_byteAt_wroteBytes (effAddr s rs1 imm) _ hm)

end Access

/-! ### The fetch -/

/-- Four bytes joined: the byte of the lowest address is the lowest (20_memory.md R54). -/
theorem leJoin_four (f : Nat → Byte) : leJoin 4 f = (f 3 ++ f 2 ++ f 1 ++ f 0 : BitVec 32) := by
  have hempty : (0#0 ++ f 3 : BitVec 8) = f 3 := by
    rw [BitVec.zero_width_append]
    rfl
  exact congrArg (fun b : Byte => (b ++ f 2 ++ f 1 ++ f 0 : BitVec 32)) hempty

theorem iFetch_of_served {c : CodeStore} {a : Nat} {b0 b1 b2 b3 : Byte} (h0 : codeByte c a = some b0)
    (h1 : codeByte c (a + 1) = some b1) (h2 : codeByte c (a + 2) = some b2) (h3 : codeByte c (a + 3) = some b3) :
    iFetch c a = some (b3 ++ b2 ++ b1 ++ b0 : BitVec 32) := by
  rw [iFetch, h0, h1, h2, h3]
  exact congrArg some (leJoin_four _)

/-- The opcode lies in the lowest byte of a word (30_encoding.md R81). -/
theorem opcodeOf_append (hi : BitVec 24) (b : Byte) : opcodeOf (hi ++ b : BitVec 32) = b.setWidth 7 := by
  apply BitVec.eq_of_getLsbD_eq
  intro k hk
  have hlow : (hi ++ b : BitVec 32).getLsbD k = b.getLsbD k := by
    rw [BitVec.getLsbD_append, if_pos (by omega)]
  simpa [opcodeOf, extractUnsigned, hk] using hlow

/-- Where the fetch conditions hold but for a byte that has been stored to, the step is refused (20_memory.md R66). -/
theorem step_refused_of_stored {s : State} {w : IWord} (hrun : s.status = .running)
    (hne : s.pc ≠ s.platform.stopSentinel) (hal : s.pc.toNat % 4 = 0) (hf : iFetch s.code s.pc.toNat = some w)
    (hst : ∃ k, k < 4 ∧ s.pc.toNat + k ∈ s.stored) : step s = .refused .fetchOfStoredByte := by
  have haligned : pcMisaligned s.pc = false := by
    rw [← Bool.not_eq_true, pcMisaligned_iff]
    exact fun hn => hn hal
  simp [step, engineStep, hrun, hne, fetchAndRun, haligned, hf, fetchIsStored_iff.2 hst]

/-- Where four addresses from `a` and n from `b` overlap, one of the four lies among the n. -/
theorem exists_common_address {a b n : Nat} (hn : 0 < n) (h1 : a < b + n) (h2 : b < a + 4) :
    ∃ k, k < 4 ∧ b ≤ a + k ∧ a + k < b + n := by
  by_cases hab : b ≤ a
  · exact ⟨0, by omega⟩
  · exact ⟨b - a, by omega⟩

/-! ### The loaded image -/

theorem inSpan_iff {base : Word} {size a : Nat} :
    inSpan base size a = true ↔ base.toNat ≤ a ∧ a < base.toNat + size := by simp [inSpan]

/-- An address of one of two disjoint stretches is none of the other. -/
theorem inSpan_eq_false_of_disjointSpans {base base' : Word} {size size' a : Nat}
    (h : disjointSpans base.toNat size base'.toNat size' = true) (ha : inSpan base' size' a = true) :
    inSpan base size a = false := by
  rw [← Bool.not_eq_true]
  intro ha'
  rw [inSpan_iff] at ha ha'
  simp only [disjointSpans, Bool.or_eq_true, decide_eq_true_eq] at h
  omega

theorem disjointSpans_comm (base size base' size' : Nat) :
    disjointSpans base size base' size' = disjointSpans base' size' base size := by
  rw [Bool.eq_iff_iff]
  simp only [disjointSpans, Bool.or_eq_true, decide_eq_true_eq]
  omega

theorem regionsDisjoint_cons {r : Region} {rs : List Region} : regionsDisjoint (r :: rs) = true ↔
    (∀ q ∈ rs, disjointSpans r.base.toNat r.size q.base.toNat q.size = true) ∧ regionsDisjoint rs = true := by
  simp [regionsDisjoint]

/-- The constraints of 00_scope.md R9 that speak of the image regions. -/
theorem image_of_wellFormed {p : Platform} (h : p.wellFormed = true) :
    (∀ r ∈ p.image, r.init.length ≤ r.size)
      ∧ (∀ r ∈ p.image, disjointSpans p.stackBase.toNat p.stackSize r.base.toNat r.size = true)
      ∧ regionsDisjoint p.image = true := by
  simp only [Platform.wellFormed, Bool.and_eq_true, List.all_eq_true] at h
  obtain ⟨⟨⟨-, hregions⟩, hstack⟩, hdisjoint⟩ := h
  refine ⟨fun r hr => ?_, hstack, hdisjoint⟩
  have hregion := hregions r hr
  simp only [Region.wellFormed, Bool.and_eq_true, decide_eq_true_eq] at hregion
  obtain ⟨-, hlen⟩ := hregion
  exact hlen

/-- The memory after the initial bytes of one region have been written. -/
def loadRegion (m : Memory) (r : Region) : Memory :=
  writeBytes m r.base.toNat r.init.length (fun k => r.init.getD k 0)

theorem loadImage_cons (m : Memory) (r : Region) (rs : List Region) :
    loadImage m (r :: rs) = loadImage (loadRegion m r) rs := rfl

theorem loadRegion_wf {m : Memory} (r : Region) (hm : Memory.wf m = true) : Memory.wf (loadRegion m r) = true :=
  writeBytes_wf _ _ _ hm

section Image

variable {m : Memory} {r : Region} {rs : List Region} {a k : Nat}

theorem readByte_loadRegion_outside (hm : Memory.wf m = true) (hlen : r.init.length ≤ r.size)
    (ha : inSpan r.base r.size a = false) : readByte (loadRegion m r) a = readByte m a := by
  rw [← Bool.not_eq_true, inSpan_iff] at ha
  rw [loadRegion, readByte_writeBytes _ _ _ _ hm, if_neg (by omega)]

/-- Where a region lists no byte, what stood there before stays: a 0 (log 5). -/
theorem readByte_loadRegion (hm : Memory.wf m = true) (hzero : readByte m (r.base.toNat + k) = 0) :
    readByte (loadRegion m r) (r.base.toNat + k) = r.init.getD k 0 := by
  rw [loadRegion, readByte_writeBytes _ _ _ _ hm, Nat.add_sub_cancel_left]
  by_cases hk : k < r.init.length
  · rw [if_pos (by omega)]
  · rw [if_neg (by omega), hzero, List.getD_eq_default _ _ (Nat.not_lt.1 hk)]

theorem readByte_loadImage_outside (hm : Memory.wf m = true) (hlen : ∀ r ∈ rs, r.init.length ≤ r.size)
    (ha : ∀ r ∈ rs, inSpan r.base r.size a = false) : readByte (loadImage m rs) a = readByte m a := by
  induction rs generalizing m with
  | nil => rfl
  | cons r rs ih =>
    rw [List.forall_mem_cons] at hlen ha
    rw [loadImage_cons, ih (loadRegion_wf r hm) hlen.2 ha.2, readByte_loadRegion_outside hm hlen.1 ha.1]

/-- Byte k of a region after all regions have been loaded: its own bytes stand there, since no other region reaches it. -/
theorem readByte_loadImage (hm : Memory.wf m = true) (hlen : ∀ r ∈ rs, r.init.length ≤ r.size)
    (hdisjoint : regionsDisjoint rs = true) (hr : r ∈ rs) (hk : k < r.size)
    (hzero : readByte m (r.base.toNat + k) = 0) :
    readByte (loadImage m rs) (r.base.toNat + k) = r.init.getD k 0 := by
  have hin : inSpan r.base r.size (r.base.toNat + k) = true := inSpan_iff.2 (by omega)
  induction rs generalizing m with
  | nil => cases hr
  | cons q rs ih =>
    rw [List.forall_mem_cons] at hlen
    obtain ⟨hhead, hdisjoint⟩ := regionsDisjoint_cons.1 hdisjoint
    rw [loadImage_cons]
    obtain rfl | hr := List.mem_cons.1 hr
    · have hrest : ∀ q ∈ rs, inSpan q.base q.size (r.base.toNat + k) = false := fun q hq =>
        inSpan_eq_false_of_disjointSpans ((disjointSpans_comm ..).trans (hhead q hq)) hin
      rw [readByte_loadImage_outside (loadRegion_wf r hm) hlen.2 hrest, readByte_loadRegion hm hzero]
    · refine ih (loadRegion_wf q hm) hlen.2 hdisjoint hr ?_
      rw [readByte_loadRegion_outside hm hlen.1 (inSpan_eq_false_of_disjointSpans (hhead r hr) hin), hzero]

end Image

/-- A byte after the stack has been zeroed (70_reset_and_hazards.md R261, R263). -/
theorem readByte_clearStack (p : Platform) (m : Memory) (a : Nat) :
    readByte (clearStack p m) a = if inStack p a = true then 0 else readByte m a := by
  rw [clearStack, readByte_filter_addr m (fun b => !inStack p b) a]
  cases inStack p a <;> rfl

theorem inImage_eq_false_iff {p : Platform} {a : Nat} :
    inImage p a = false ↔ ∀ r ∈ p.image, inSpan r.base r.size a = false := by simp [inImage]

/-! ### The statements -/

/-- Settles O53: a step stops, faults or runs an instruction, and none of the three touches the setup. -/
theorem setupIsFixedForTheRun : Obligations.SetupIsFixedForTheRun := by
  intro s t hstep
  obtain ⟨-, rfl | ⟨f, rfl⟩ | ⟨i, he⟩⟩ := step_cases hstep
  · exact ⟨rfl, rfl⟩
  · exact ⟨rfl, rfl⟩
  · exact exec_code_platform he

/-- Settles O49: all that a store has written is its own access, and nothing else writes memory. -/
theorem onlyStoresChangeMemory : Obligations.OnlyStoresChangeMemory := by
  intro i s t hinv _ he hrun
  obtain ⟨s', p, hw, rfl⟩ := exec_completes he (not_faulted_of_running hrun)
  constructor
  · intro addr n hacc
    obtain ⟨v, rfl⟩ := hw.eq_wroteBytes hacc
    exact sameMemoryOutside_wroteBytes addr v hinv.mem_wf
  · intro hno
    obtain ⟨hmem, hstored⟩ := hw.mem_and_stored_eq hno
    exact ⟨fun a => congrArg (readByte · a) hmem, hstored⟩

/-- Settles O39: `load_after_store` at the widths 8, 4 and 1. -/
theorem storeThenLoadGivesBack : Obligations.StoreThenLoadGivesBack := by
  intro rs2 rs1 rd imm s hinv hrd addr v
  refine ⟨fun hvalid => ?_, load_after_store hinv.mem_wf (by decide) hrd, load_after_store hinv.mem_wf (by decide) hrd⟩
  obtain ⟨t, u, hstore, hload, hstatus, hreg⟩ := load_after_store (rs2 := rs2) hinv.mem_wf (by decide) hrd hvalid
  exact ⟨t, u, hstore, hload, hstatus, BitVec.eq_of_toNat_eq (hreg.trans (Nat.mod_eq_of_lt v.isLt))⟩

/-- Settles O14: the fetch joins the four served bytes, and the opcode is the low part of the lowest. -/
theorem fetchIsLittleEndian : Obligations.FetchIsLittleEndian := by
  intro c a b0 b1 b2 b3 h0 h1 h2 h3
  exact ⟨_, iFetch_of_served h0 h1 h2 h3, rfl, opcodeOf_append (b3 ++ b2 ++ b1) b0⟩

/-- Settles O12: the store has noted its n addresses, one of which is among the four fetched. -/
theorem fetchOfStoredByteIsRefused : Obligations.FetchOfStoredByteIsRefused := by
  intro i s t addr n target c w hacc _ he hrun hne hal hf hlo hhi
  obtain ⟨-, hplatform⟩ := exec_code_platform he
  obtain ⟨s', p, hw, rfl⟩ := exec_completes he (not_faulted_of_running hrun)
  obtain ⟨v, rfl⟩ := hw.eq_wroteBytes hacc
  obtain ⟨k, hk, hspan⟩ := exists_common_address (accessOf_width_pos hacc) hlo hhi
  exact step_refused_of_stored hrun (hplatform ▸ hne) hal hf ⟨k, hk, mem_noteAddrs.2 (.inr hspan)⟩

/-- Settles O3: no region reaches another's bytes, and the stack that `init` zeroes reaches none. -/
theorem loadedImageIsRead : Obligations.LoadedImageIsRead := by
  intro s p code target a0 a1 a2 a3 hp t u
  obtain ⟨hlen, hstack, hdisjoint⟩ := image_of_wellFormed hp
  have hinit : ∀ a, readByte u.mem a = if inStack p a = true then 0 else readByte t.mem a :=
    readByte_clearStack p t.mem
  refine ⟨fun r hr k hk => ?_, fun a ha => ?_, rfl, rfl⟩
  · have hload : readByte t.mem (r.base.toNat + k) = r.init.getD k 0 :=
      readByte_loadImage Memory.wf_nil hlen hdisjoint hr hk rfl
    have hoff : inStack p (r.base.toNat + k) = false :=
      inSpan_eq_false_of_disjointSpans (hstack r hr) (inSpan_iff.2 (by omega))
    refine ⟨hload, ?_⟩
    rw [hinit, hoff, ← hload]
    rfl
  · have hload : readByte t.mem a = 0 :=
      readByte_loadImage_outside Memory.wf_nil hlen (inImage_eq_false_iff.1 ha)
    refine ⟨hload, ?_⟩
    rw [hinit, hload, ite_self]

end Sys2Proof.Machine
end

section
/-! PROOFS. The encoding (30_encoding.md): each unit's decoding and the words it refuses, the round trips between words and
instructions, what every row of the opcode map decodes to, and the standard layout of a branch word. -/

namespace Sys2Proof.Machine

/-! ### Routing by the opcode (30_encoding.md R101) -/

section Routing

variable {w : IWord}

theorem decode_of_opcR (h : opcodeOf w = opcR) : decode w = decodeR w := by
  rw [decode, h]
  rfl

theorem decode_of_opcRw (h : opcodeOf w = opcRw) : decode w = decodeR w := by
  rw [decode, h]
  rfl

theorem decode_of_opcIArith (h : opcodeOf w = opcIArith) : decode w = decodeIArith w := by
  rw [decode, h]
  rfl

theorem decode_of_opcLoad (h : opcodeOf w = opcLoad) : decode w = decodeLoad w := by
  rw [decode, h]
  rfl

theorem decode_of_opcStore (h : opcodeOf w = opcStore) : decode w = decodeStore w := by
  rw [decode, h]
  rfl

theorem decode_of_opcBranch (h : opcodeOf w = opcBranch) : decode w = decodeBranch w := by
  rw [decode, h]
  rfl

theorem decode_of_opcJal (h : opcodeOf w = opcJal) : decode w = .ok (.jal (rdOf w) (offJOf w)) := by
  rw [decode, h]
  rfl

theorem decode_of_opcJalr (h : opcodeOf w = opcJalr) : decode w = .ok (.jalr (rdOf w) (rs1Of w) (immIOf w)) := by
  rw [decode, h]
  rfl

end Routing

/-! ### The word of every instruction decodes to it -/

section Shift

variable (f7 : BitVec 7) (shamt : BitVec 5) (rs1 : RegIdx) (f3 : BitVec 3) (rd : RegIdx) (opc : BitVec 7)

theorem encodeI_funct7 : funct7Of (encodeI (f7 ++ shamt : BitVec 12) rs1 f3 rd opc) = f7 :=
  (encodeI_immPart _ rs1 f3 rd opc 5 7).trans ((extract_append_high _ shamt 0 7).trans (BitVec.extractLsb'_eq_self ..))

theorem encodeI_shamt : shamtOf (encodeI (f7 ++ shamt : BitVec 12) rs1 f3 rd opc) = shamt :=
  (encodeI_immPart _ rs1 f3 rd opc 0 5).trans (extract_append_low _ shamt)

end Shift

/-- The opcode routes the word to its instruction's unit, and there every field reads back as the operand it was made of. -/
theorem decode_encode {i : Instr} (hwf : i.wellFormed = true) : decode (encode i) = .ok i := by
  cases i with
  | add | sub | mul | and | sll | srl | sra =>
    rw [encode, decode_of_opcR (encodeR_opcode ..), decodeR, bit3_of_opcode, encodeR_opcode, encodeR_funct3,
      encodeR_funct7, encodeR_rd, encodeR_rs1, encodeR_rs2]
    rfl
  | addRw | subRw | mulRw | andRw | sllw | srlRw | sraw =>
    rw [encode, decode_of_opcRw (encodeR_opcode ..), decodeR, bit3_of_opcode, encodeR_opcode, encodeR_funct3,
      encodeR_funct7, encodeR_rd, encodeR_rs1, encodeR_rs2]
    rfl
  | addi =>
    rw [encode, decode_of_opcIArith (encodeI_opcode ..), decodeIArith, encodeI_funct3, encodeI_rd, encodeI_rs1,
      encodeI_imm]
    rfl
  | srli =>
    rw [encode, decode_of_opcIArith (encodeI_opcode ..), decodeIArith, encodeI_funct3, encodeI_funct7, encodeI_rd,
      encodeI_rs1, encodeI_shamt]
    rfl
  | lb | lw | ld =>
    rw [encode, decode_of_opcLoad (encodeI_opcode ..), decodeLoad, encodeI_funct3, encodeI_rd, encodeI_rs1,
      encodeI_imm]
    rfl
  | sb | sw | sd =>
    rw [encode, decode_of_opcStore (encodeS_opcode ..), decodeStore, encodeS_funct3, encodeS_rs2, encodeS_rs1,
      encodeS_imm]
    rfl
  | beq | bne | blt | bge =>
    rw [encode, decode_of_opcBranch (encodeS_opcode ..), decodeBranch, encodeS_funct3, encodeS_rs2, encodeS_rs1,
      encodeS_imm]
    rfl
  | jal rd off =>
    rw [encode, decode_of_opcJal (encodeJ_opcode ..), encodeJ_rd, encodeJ_off _ _ _ (of_decide_eq_true hwf)]
  | jalr => rw [encode, decode_of_opcJalr (encodeI_opcode ..), encodeI_rd, encodeI_rs1, encodeI_imm]

/-! ### A word is the encoding of its fields, with its opcode and functs known -/

section Fields

variable {w : IWord} {f7 opc : BitVec 7} {f3 : BitVec 3}

theorem encodeR_of_fields (hop : opcodeOf w = opc) (h3 : funct3Of w = f3) (h7 : funct7Of w = f7) :
    encodeR f7 (rs2Of w) (rs1Of w) f3 (rdOf w) opc = w := by
  subst hop h3 h7
  exact encodeR_fields w

theorem encodeI_of_fields (hop : opcodeOf w = opc) (h3 : funct3Of w = f3) :
    encodeI (immIOf w) (rs1Of w) f3 (rdOf w) opc = w := by
  subst hop h3
  exact encodeI_fields w

theorem encodeI_shamt_of_fields (hop : opcodeOf w = opc) (h3 : funct3Of w = f3) (h7 : funct7Of w = f7) :
    encodeI (f7 ++ shamtOf w : BitVec 12) (rs1Of w) f3 (rdOf w) opc = w := by
  have himm : (f7 ++ shamtOf w : BitVec 12) = immIOf w := h7 ▸ append_extract (n := 7) (m := 5) w 20
  rw [himm]
  exact encodeI_of_fields hop h3

theorem encodeS_of_fields (hop : opcodeOf w = opc) (h3 : funct3Of w = f3) :
    encodeS (immSOf w) (rs2Of w) (rs1Of w) f3 opc = w := by
  subst hop h3
  exact encodeS_fields w

theorem encodeJ_of_fields (hop : opcodeOf w = opc) : encodeJ (offJOf w) (rdOf w) opc = w := by
  subst hop
  exact encodeJ_fields w

/-- The I-format word with funct3 = 000 that has the other fields of `w`: how JALR's word comes back (R105). -/
theorem encodeI_clear_funct3 {opc : BitVec 7} (hop : opcodeOf w = opc) :
    encodeI (immIOf w) (rs1Of w) 0b000#3 (rdOf w) opc = w &&& 0xFFFF8FFF#32 := by
  have hkept : ∀ lo len, (0xFFFF8FFF#32).extractLsb' lo len = BitVec.allOnes len →
      extractUnsigned (w &&& 0xFFFF8FFF#32) lo len = extractUnsigned w lo len :=
    fun lo len hm => (field_of_selects lo len rfl hm).symm
  have hopcode : opcodeOf (w &&& 0xFFFF8FFF#32) = opc := (hkept 0 7 (by decide)).trans hop
  have hrd : rdOf (w &&& 0xFFFF8FFF#32) = rdOf w := congrArg BitVec.toFin (hkept 7 5 (by decide))
  have hrs1 : rs1Of (w &&& 0xFFFF8FFF#32) = rs1Of w := congrArg BitVec.toFin (hkept 15 5 (by decide))
  have himm : immIOf (w &&& 0xFFFF8FFF#32) = immIOf w := hkept 20 12 (by decide)
  have hfunct3 : funct3Of (w &&& 0xFFFF8FFF#32) = 0b000#3 := by
    rw [funct3Of, extractUnsigned, BitVec.extractLsb'_and]
    exact BitVec.and_zero
  rw [← encodeI_of_fields hopcode hfunct3, himm, hrs1, hrd]

end Fields

/-! ### Every word that decodes is the word of its instruction -/

section Decoded

variable {w : IWord} {i : Instr}

/-- Bit 3 of the opcode, which chooses between the two columns of the R-type unit, tells `opcR` from `opcRw`. -/
theorem encode_of_decodeR (hop : opcodeOf w = opcR ∨ opcodeOf w = opcRw) (h : decodeR w = .ok i) :
    i.wellFormed = true ∧ encode i = w := by
  obtain hop | hop := hop
  all_goals
    simp only [decodeR, bit3_of_opcode, hop, opcR, opcRw, BitVec.reduceGetLsb, Bool.not_false, Bool.not_true,
      reduceIte, Bool.false_eq_true] at h
    split_ifs at h with hf hf hf hf hf hf hf
    all_goals
      obtain rfl := Except.ok.inj h
      exact ⟨rfl, encodeR_of_fields hop hf.1 hf.2⟩

theorem encode_of_decodeIArith (hop : opcodeOf w = opcIArith) (h : decodeIArith w = .ok i) :
    i.wellFormed = true ∧ encode i = w := by
  simp only [decodeIArith] at h
  split_ifs at h with h3 h3 h7
  all_goals obtain rfl := Except.ok.inj h
  · exact ⟨rfl, encodeI_of_fields hop h3⟩
  · exact ⟨rfl, encodeI_shamt_of_fields hop h3 h7⟩

theorem encode_of_decodeLoad (hop : opcodeOf w = opcLoad) (h : decodeLoad w = .ok i) :
    i.wellFormed = true ∧ encode i = w := by
  simp only [decodeLoad] at h
  split_ifs at h with h3 h3 h3
  all_goals
    obtain rfl := Except.ok.inj h
    exact ⟨rfl, encodeI_of_fields hop h3⟩

theorem encode_of_decodeStore (hop : opcodeOf w = opcStore) (h : decodeStore w = .ok i) :
    i.wellFormed = true ∧ encode i = w := by
  simp only [decodeStore] at h
  split_ifs at h with h3 h3 h3
  all_goals
    obtain rfl := Except.ok.inj h
    exact ⟨rfl, encodeS_of_fields hop h3⟩

theorem encode_of_decodeBranch (hop : opcodeOf w = opcBranch) (h : decodeBranch w = .ok i) :
    i.wellFormed = true ∧ encode i = w := by
  simp only [decodeBranch] at h
  split_ifs at h with h3 h3 h3 h3
  all_goals
    obtain rfl := Except.ok.inj h
    exact ⟨rfl, encodeS_of_fields hop h3⟩

/-- Each unit answers the operands it read under the functs it checked; the JALR unit checks no funct3 (R105). -/
theorem encode_of_decode (h : decode w = .ok i) :
    i.wellFormed = true ∧ encode i = if opcodeOf w = opcJalr then w &&& 0xFFFF8FFF#32 else w := by
  by_cases hjalr : opcodeOf w = opcJalr
  · rw [decode_of_opcJalr hjalr] at h
    obtain rfl := Except.ok.inj h
    rw [if_pos hjalr]
    exact ⟨rfl, encodeI_clear_funct3 hjalr⟩
  · rw [if_neg hjalr]
    simp only [decode] at h
    split_ifs at h with hop hop hop hop hop hop hop
    · exact encode_of_decodeR (.inl hop) h
    · exact encode_of_decodeR (.inr hop) h
    · exact encode_of_decodeIArith hop h
    · exact encode_of_decodeLoad hop h
    · exact encode_of_decodeStore hop h
    · exact encode_of_decodeBranch hop h
    · obtain rfl := Except.ok.inj h
      exact ⟨decide_eq_true (offJOf_even w), encodeJ_of_fields hop⟩

end Decoded

/-! ### What the words of each row decode to (R100) -/

section Rows

variable {p m : IWord} {mk : IWord → Instr}

/-- If every word of a row is the encoding of what `mk` reads from it, then by `decode_encode` it decodes to that. -/
theorem RowDecodesTo.of_encode (hwf : ∀ w, (mk w).wellFormed = true) (henc : ∀ w, w &&& m = p → encode (mk w) = w) :
    RowDecodesTo p m mk :=
  fun w hw => (congrArg decode (henc w hw)).symm.trans (decode_encode (hwf w))

theorem RowDecodesTo.of_encodeR (h : ∀ w, (mk w).wellFormed = true ∧ encode (mk w) =
      encodeR (p.extractLsb' 25 7) (rs2Of w) (rs1Of w) (p.extractLsb' 12 3) (rdOf w) (p.extractLsb' 0 7)) :
    RowDecodesTo p 0xFE00707F#32 mk :=
  .of_encode (fun w => (h w).1) fun w hw => (h w).2.trans <| encodeR_of_fields (field_of_selects 0 7 hw (by decide))
    (field_of_selects 12 3 hw (by decide)) (field_of_selects 25 7 hw (by decide))

theorem RowDecodesTo.of_encodeI_shamt (h : ∀ w, (mk w).wellFormed = true ∧ encode (mk w) =
      encodeI (p.extractLsb' 25 7 ++ shamtOf w : BitVec 12) (rs1Of w) (p.extractLsb' 12 3) (rdOf w)
        (p.extractLsb' 0 7)) :
    RowDecodesTo p 0xFE00707F#32 mk :=
  .of_encode (fun w => (h w).1) fun w hw => (h w).2.trans <|
    encodeI_shamt_of_fields (field_of_selects 0 7 hw (by decide)) (field_of_selects 12 3 hw (by decide))
      (field_of_selects 25 7 hw (by decide))

theorem RowDecodesTo.of_encodeI (h : ∀ w, (mk w).wellFormed = true ∧ encode (mk w) =
      encodeI (immIOf w) (rs1Of w) (p.extractLsb' 12 3) (rdOf w) (p.extractLsb' 0 7)) :
    RowDecodesTo p 0x0000707F#32 mk :=
  .of_encode (fun w => (h w).1) fun w hw => (h w).2.trans <| encodeI_of_fields (field_of_selects 0 7 hw (by decide))
    (field_of_selects 12 3 hw (by decide))

theorem RowDecodesTo.of_encodeS (h : ∀ w, (mk w).wellFormed = true ∧ encode (mk w) =
      encodeS (immSOf w) (rs2Of w) (rs1Of w) (p.extractLsb' 12 3) (p.extractLsb' 0 7)) :
    RowDecodesTo p 0x0000707F#32 mk :=
  .of_encode (fun w => (h w).1) fun w hw => (h w).2.trans <| encodeS_of_fields (field_of_selects 0 7 hw (by decide))
    (field_of_selects 12 3 hw (by decide))

/-- The form in which a row says which mnemonic its words have. -/
theorem RowDecodesTo.names {name : String} (h : RowDecodesTo p m mk)
    (hname : ∀ w, (mk w).mnemonic = name := by exact fun _ => rfl) (w : IWord) (hw : w &&& m = p) :
    ∃ i, decode w = .ok i ∧ i.mnemonic = name :=
  ⟨mk w, h w hw, hname w⟩

end Rows

/-! #### The 28 rows, in the order of R100 -/

theorem decode_add : RowDecodesTo 0x00000033#32 0xFE00707F#32 (fun w => .add (rdOf w) (rs1Of w) (rs2Of w)) :=
  .of_encodeR fun _ => ⟨rfl, rfl⟩

theorem decode_sub : RowDecodesTo 0x40000033#32 0xFE00707F#32 (fun w => .sub (rdOf w) (rs1Of w) (rs2Of w)) :=
  .of_encodeR fun _ => ⟨rfl, rfl⟩

theorem decode_mul : RowDecodesTo 0x02000033#32 0xFE00707F#32 (fun w => .mul (rdOf w) (rs1Of w) (rs2Of w)) :=
  .of_encodeR fun _ => ⟨rfl, rfl⟩

theorem decode_and : RowDecodesTo 0x00007033#32 0xFE00707F#32 (fun w => .and (rdOf w) (rs1Of w) (rs2Of w)) :=
  .of_encodeR fun _ => ⟨rfl, rfl⟩

theorem decode_sll : RowDecodesTo 0x00001033#32 0xFE00707F#32 (fun w => .sll (rdOf w) (rs1Of w) (rs2Of w)) :=
  .of_encodeR fun _ => ⟨rfl, rfl⟩

theorem decode_srl : RowDecodesTo 0x00005033#32 0xFE00707F#32 (fun w => .srl (rdOf w) (rs1Of w) (rs2Of w)) :=
  .of_encodeR fun _ => ⟨rfl, rfl⟩

theorem decode_sra : RowDecodesTo 0x40005033#32 0xFE00707F#32 (fun w => .sra (rdOf w) (rs1Of w) (rs2Of w)) :=
  .of_encodeR fun _ => ⟨rfl, rfl⟩

theorem decode_addRw : RowDecodesTo 0x0000003B#32 0xFE00707F#32 (fun w => .addRw (rdOf w) (rs1Of w) (rs2Of w)) :=
  .of_encodeR fun _ => ⟨rfl, rfl⟩

theorem decode_subRw : RowDecodesTo 0x4000003B#32 0xFE00707F#32 (fun w => .subRw (rdOf w) (rs1Of w) (rs2Of w)) :=
  .of_encodeR fun _ => ⟨rfl, rfl⟩

theorem decode_mulRw : RowDecodesTo 0x0200003B#32 0xFE00707F#32 (fun w => .mulRw (rdOf w) (rs1Of w) (rs2Of w)) :=
  .of_encodeR fun _ => ⟨rfl, rfl⟩

theorem decode_andRw : RowDecodesTo 0x0000703B#32 0xFE00707F#32 (fun w => .andRw (rdOf w) (rs1Of w) (rs2Of w)) :=
  .of_encodeR fun _ => ⟨rfl, rfl⟩

theorem decode_sllw : RowDecodesTo 0x0000103B#32 0xFE00707F#32 (fun w => .sllw (rdOf w) (rs1Of w) (rs2Of w)) :=
  .of_encodeR fun _ => ⟨rfl, rfl⟩

theorem decode_srlRw : RowDecodesTo 0x0000503B#32 0xFE00707F#32 (fun w => .srlRw (rdOf w) (rs1Of w) (rs2Of w)) :=
  .of_encodeR fun _ => ⟨rfl, rfl⟩

theorem decode_sraw : RowDecodesTo 0x4000503B#32 0xFE00707F#32 (fun w => .sraw (rdOf w) (rs1Of w) (rs2Of w)) :=
  .of_encodeR fun _ => ⟨rfl, rfl⟩

theorem decode_addi : RowDecodesTo 0x00000013#32 0x0000707F#32 (fun w => .addi (rdOf w) (rs1Of w) (immIOf w)) :=
  .of_encodeI fun _ => ⟨rfl, rfl⟩

theorem decode_srli : RowDecodesTo 0x00005013#32 0xFE00707F#32 (fun w => .srli (rdOf w) (rs1Of w) (shamtOf w)) :=
  .of_encodeI_shamt fun _ => ⟨rfl, rfl⟩

theorem decode_lb : RowDecodesTo 0x00000003#32 0x0000707F#32 (fun w => .lb (rdOf w) (rs1Of w) (immIOf w)) :=
  .of_encodeI fun _ => ⟨rfl, rfl⟩

theorem decode_lw : RowDecodesTo 0x00002003#32 0x0000707F#32 (fun w => .lw (rdOf w) (rs1Of w) (immIOf w)) :=
  .of_encodeI fun _ => ⟨rfl, rfl⟩

theorem decode_ld : RowDecodesTo 0x00003003#32 0x0000707F#32 (fun w => .ld (rdOf w) (rs1Of w) (immIOf w)) :=
  .of_encodeI fun _ => ⟨rfl, rfl⟩

theorem decode_sb : RowDecodesTo 0x00000023#32 0x0000707F#32 (fun w => .sb (rs2Of w) (rs1Of w) (immSOf w)) :=
  .of_encodeS fun _ => ⟨rfl, rfl⟩

theorem decode_sw : RowDecodesTo 0x00002023#32 0x0000707F#32 (fun w => .sw (rs2Of w) (rs1Of w) (immSOf w)) :=
  .of_encodeS fun _ => ⟨rfl, rfl⟩

theorem decode_sd : RowDecodesTo 0x00003023#32 0x0000707F#32 (fun w => .sd (rs2Of w) (rs1Of w) (immSOf w)) :=
  .of_encodeS fun _ => ⟨rfl, rfl⟩

theorem decode_beq : RowDecodesTo 0x00000063#32 0x0000707F#32 (fun w => .beq (rs1Of w) (rs2Of w) (immSOf w)) :=
  .of_encodeS fun _ => ⟨rfl, rfl⟩

theorem decode_bne : RowDecodesTo 0x00001063#32 0x0000707F#32 (fun w => .bne (rs1Of w) (rs2Of w) (immSOf w)) :=
  .of_encodeS fun _ => ⟨rfl, rfl⟩

theorem decode_blt : RowDecodesTo 0x00004063#32 0x0000707F#32 (fun w => .blt (rs1Of w) (rs2Of w) (immSOf w)) :=
  .of_encodeS fun _ => ⟨rfl, rfl⟩

theorem decode_bge : RowDecodesTo 0x00005063#32 0x0000707F#32 (fun w => .bge (rs1Of w) (rs2Of w) (immSOf w)) :=
  .of_encodeS fun _ => ⟨rfl, rfl⟩

theorem decode_jal : RowDecodesTo 0x0000006F#32 0x0000007F#32 (fun w => .jal (rdOf w) (offJOf w)) := fun _ hw =>
  decode_of_opcJal (field_of_selects 0 7 hw (by decide))

theorem decode_jalr : RowDecodesTo 0x00000067#32 0x0000007F#32 (fun w => .jalr (rdOf w) (rs1Of w) (immIOf w)) :=
  fun _ hw => decode_of_opcJalr (field_of_selects 0 7 hw (by decide))

/-! ### The opcode map: the row a word selects and the mnemonic it decodes to -/

theorem exists_decode_of_row : ∀ row ∈ opcodeTable, ∀ w : IWord, w &&& row.2.2 = row.2.1 →
    ∃ i, decode w = .ok i ∧ i.mnemonic = row.1 := by
  simp only [opcodeTable, rowsR, rowsRw, rowsIS, rowsBJ, List.cons_append, List.nil_append, List.forall_mem_cons]
  exact ⟨decode_add.names, decode_sub.names, decode_mul.names, decode_and.names, decode_sll.names,
    decode_srl.names, decode_sra.names, decode_addRw.names, decode_subRw.names, decode_mulRw.names,
    decode_andRw.names, decode_sllw.names, decode_srlRw.names, decode_sraw.names, decode_addi.names,
    decode_srli.names, decode_lb.names, decode_lw.names, decode_ld.names, decode_sb.names, decode_sw.names,
    decode_sd.names, decode_beq.names, decode_bne.names, decode_blt.names, decode_bge.names, decode_jal.names,
    decode_jalr.names, List.forall_mem_nil _⟩

theorem encode_selects_row (i : Instr) : Laws.EncodeSelectsRow.Statement i := by
  open Laws.EncodeSelectsRow in
  cases i
  exacts [add .., sub .., mul .., and .., sll .., srl .., sra .., addRw .., subRw .., mulRw .., andRw .., sllw ..,
    srlRw .., sraw .., addi .., srli .., lb .., lw .., ld .., sb .., sw .., sd .., beq .., bne .., blt .., bge ..,
    jal .., jalr ..]

/-- JALR's word may differ from the encoding, but not in the opcode, which is all that its row looks at. -/
theorem exists_row_of_decode {w : IWord} {i : Instr} (h : decode w = .ok i) :
    ∃ row ∈ opcodeTable, row.1 = i.mnemonic ∧ w &&& row.2.2 = row.2.1 := by
  by_cases hjalr : opcodeOf w = opcJalr
  · rw [decode_of_opcJalr hjalr] at h
    obtain rfl := Except.ok.inj h
    exact ⟨("JALR", 0x00000067#32, 0x0000007F#32), by decide, rfl,
      of_decide_eq_true (selects_of_opcode (hjalr.trans (by decide)) (by decide))⟩
  · obtain ⟨row, hmem, hname, hsel⟩ := encode_selects_row i
    obtain ⟨-, henc⟩ := encode_of_decode h
    rw [henc, if_neg hjalr] at hsel
    exact ⟨row, hmem, hname, of_decide_eq_true hsel⟩

/-- No two rows of the map have the same mnemonic. -/
theorem row_eq_of_mnemonic_eq {r r' : String × IWord × IWord} (hr : r ∈ opcodeTable) (hr' : r' ∈ opcodeTable)
    (h : r.1 = r'.1) : r = r' :=
  List.inj_on_of_nodup_map (f := Prod.fst) (by decide) hr hr' h

/-- A word decodes to one instruction at most, so it selects one row at most (R102). -/
theorem row_eq_of_selects {w : IWord} {r r' : String × IWord × IWord} (hr : r ∈ opcodeTable) (hr' : r' ∈ opcodeTable)
    (h : w &&& r.2.2 = r.2.1) (h' : w &&& r'.2.2 = r'.2.1) : r = r' := by
  obtain ⟨i, hdec, hname⟩ := exists_decode_of_row r hr w h
  obtain ⟨i', hdec', hname'⟩ := exists_decode_of_row r' hr' w h'
  obtain rfl := Except.ok.inj (hdec.symm.trans hdec')
  exact row_eq_of_mnemonic_eq hr hr' (hname.symm.trans hname')

theorem length_filter_selects {w : IWord} {r : String × IWord × IWord} (hr : r ∈ opcodeTable)
    (h : w &&& r.2.2 = r.2.1) : (opcodeTable.filter (fun r => selects w r.2.2 r.2.1)).length = 1 := by
  have honly : ∀ r' ∈ opcodeTable, selects w r'.2.2 r'.2.1 = true ↔ (r' == r) = true := by
    intro r' hr'
    rw [selects, decide_eq_true_iff, beq_iff_eq]
    exact ⟨fun h' => row_eq_of_selects hr' hr h' h, fun e => e ▸ h⟩
  have hnodup : opcodeTable.Nodup := .of_map Prod.fst (by decide)
  rw [← List.countP_eq_length_filter, List.countP_congr honly]
  exact List.count_eq_one_of_mem hnodup hr

/-! ### Unsupported words (60_exceptions.md R221) -/

section Unsupported

variable {w : IWord}

theorem opcodeOf_toNat (w : IWord) : (opcodeOf w).toNat = w.toNat % 2 ^ 7 := by
  rw [opcodeOf, extractUnsigned, BitVec.extractLsb'_toNat, Nat.shiftRight_zero]

theorem opcodeOf_eq_of_mod {opc : BitVec 7} (h : w.toNat % 2 ^ 7 = opc.toNat) : opcodeOf w = opc :=
  BitVec.eq_of_toNat_eq ((opcodeOf_toNat w).trans h)

theorem not_mem_of_toNat_not_mem {n : Nat} {v : BitVec n} {l : List (BitVec n)} (h : v.toNat ∉ l.map BitVec.toNat) :
    v ∉ l := fun hmem => h (List.mem_map_of_mem hmem)

theorem decode_error_of_opcode
    (h : opcodeOf w ∉ [opcR, opcRw, opcIArith, opcLoad, opcStore, opcBranch, opcJal, opcJalr]) :
    decode w = .error (.opcode (opcodeOf w)) := by
  simp only [List.mem_cons, List.not_mem_nil, or_false, not_or] at h
  simp only [decode, h, if_false]

theorem decodeR_error (h : (funct3Of w, funct7Of w) ∉
      [(0#3, 0#7), (0#3, 32#7), (0#3, 1#7), (7#3, 0#7), (1#3, 0#7), (5#3, 0#7), (5#3, 32#7)]) :
    decodeR w = .error (.functPair (funct3Of w) (funct7Of w)) := by
  simp only [List.mem_cons, List.not_mem_nil, or_false, not_or, Prod.mk.injEq] at h
  simp only [decodeR, h, if_false]

theorem decodeIArith_error (h : funct3Of w ∉ [0#3, 5#3]) : decodeIArith w = .error (.funct3 (funct3Of w)) := by
  simp only [List.mem_cons, List.not_mem_nil, or_false, not_or] at h
  simp only [decodeIArith, h, if_false]

theorem decodeIArith_funct7_error (h3 : funct3Of w = 5#3) (h7 : funct7Of w ≠ 0#7) :
    decodeIArith w = .error (.funct7 (funct7Of w)) := by
  rw [decodeIArith, h3, if_neg h7]
  rfl

theorem decodeLoad_error (h : funct3Of w ∉ [0#3, 2#3, 3#3]) : decodeLoad w = .error (.funct3 (funct3Of w)) := by
  simp only [List.mem_cons, List.not_mem_nil, or_false, not_or] at h
  simp only [decodeLoad, h, if_false]

theorem decodeStore_error (h : funct3Of w ∉ [0#3, 2#3, 3#3]) : decodeStore w = .error (.funct3 (funct3Of w)) := by
  simp only [List.mem_cons, List.not_mem_nil, or_false, not_or] at h
  simp only [decodeStore, h, if_false]

theorem decodeBranch_error (h : funct3Of w ∉ [0#3, 1#3, 4#3, 5#3]) :
    decodeBranch w = .error (.funct3 (funct3Of w)) := by
  simp only [List.mem_cons, List.not_mem_nil, or_false, not_or] at h
  simp only [decodeBranch, h, if_false]

end Unsupported

/-! ### Bit fields as numbers -/

theorem append_toNat {n m : Nat} (a : BitVec n) (b : BitVec m) : (a ++ b).toNat = a.toNat * 2 ^ m + b.toNat := by
  rw [BitVec.toNat_append, ← Nat.shiftLeft_add_eq_or_of_lt b.isLt, Nat.shiftLeft_eq]

theorem extract_toNat {n : Nat} (v : BitVec n) (lo len : Nat) :
    (v.extractLsb' lo len).toNat = v.toNat / 2 ^ lo % 2 ^ len := by
  rw [BitVec.extractLsb'_toNat, Nat.shiftRight_eq_div_pow]

theorem immSOf_toNat (w : IWord) : (immSOf w).toNat = w.toNat / 2 ^ 25 % 2 ^ 7 * 2 ^ 5 + w.toNat / 2 ^ 7 % 2 ^ 5 := by
  rw [immSOf, append_toNat, extractUnsigned, extractUnsigned, extract_toNat, extract_toNat]

/-- The S immediate of a word cut where the standard B layout cuts it (45_branch.md R206). -/
theorem immSOf_append (a : BitVec 1) (b : BitVec 6) (rs2 rs1 : BitVec 5) (f3 : BitVec 3) (c : BitVec 4) (d : BitVec 1)
    (opc : BitVec 7) :
    immSOf (a ++ b ++ rs2 ++ rs1 ++ f3 ++ c ++ d ++ opc : BitVec 32) = (a ++ (b ++ c : BitVec 10) ++ d : BitVec 12) := by
  apply BitVec.eq_of_toNat_eq
  rw [immSOf_toNat]
  simp only [append_toNat]
  omega

/-! ### The statements -/

/-- Settles O16, by cases on the instruction, one unit at a time. -/
theorem decodeOfEncode : Obligations.DecodeOfEncode := fun _ hwf => decode_encode hwf

/-- Settles O17: each unit answers the operands it read, and a word is the encoding of its own fields. -/
theorem encodeOfDecode : Obligations.EncodeOfDecode := fun _ _ h => encode_of_decode h

/-- Settles O18: a row's words decode to its mnemonic, a word that decodes selects a row of its mnemonic, and no two rows
share a mnemonic. -/
theorem decodeFollowsOpcodeTable : Obligations.DecodeFollowsOpcodeTable := by
  refine ⟨fun w name pattern mask hmem => ⟨exists_decode_of_row _ hmem w, ?_⟩, fun w => ⟨?_, fun hone => ?_⟩⟩
  · rintro ⟨i, hdec, rfl⟩
    obtain ⟨row, hrow, hname, hsel⟩ := exists_row_of_decode hdec
    obtain rfl := row_eq_of_mnemonic_eq hrow hmem hname
    exact hsel
  · rintro ⟨i, hdec⟩
    obtain ⟨row, hrow, -, hsel⟩ := exists_row_of_decode hdec
    exact length_filter_selects hrow hsel
  · obtain ⟨row, hrow⟩ := List.exists_mem_of_length_pos (hone ▸ Nat.one_pos)
    obtain ⟨hmem, hsel⟩ := List.mem_filter.1 hrow
    obtain ⟨i, hdec, -⟩ := exists_decode_of_row row hmem w (of_decide_eq_true hsel)
    exact ⟨i, hdec⟩

/-- Settles O19: the opcode routes the word to one unit, and each unit refuses exactly the functs it does not list. -/
theorem unsupportedWordsByUnit : Obligations.UnsupportedWordsByUnit := by
  intro w op f3 f7
  refine ⟨fun hop => ?_, fun hop h => ?_, fun hop h => ?_, fun hop h3 h7 => ?_, fun hop h => ?_, fun hop h => ?_,
    fun hop => ?_⟩
  · exact decode_error_of_opcode (not_mem_of_toNat_not_mem (opcodeOf_toNat w ▸ hop))
  · have hpair := decodeR_error (w := w) fun hmem =>
      h (List.mem_map_of_mem (f := Prod.map BitVec.toNat BitVec.toNat) hmem)
    obtain hop | hop := List.mem_pair.1 hop
    · exact (decode_of_opcR (opcodeOf_eq_of_mod hop)).trans hpair
    · exact (decode_of_opcRw (opcodeOf_eq_of_mod hop)).trans hpair
  · exact (decode_of_opcIArith (opcodeOf_eq_of_mod hop)).trans (decodeIArith_error (not_mem_of_toNat_not_mem h))
  · exact (decode_of_opcIArith (opcodeOf_eq_of_mod hop)).trans
      (decodeIArith_funct7_error (BitVec.eq_of_toNat_eq h3) (fun e => h7 (congrArg BitVec.toNat e)))
  · obtain hop | hop := List.mem_pair.1 hop
    · exact (decode_of_opcLoad (opcodeOf_eq_of_mod hop)).trans (decodeLoad_error (not_mem_of_toNat_not_mem h))
    · exact (decode_of_opcStore (opcodeOf_eq_of_mod hop)).trans (decodeStore_error (not_mem_of_toNat_not_mem h))
  · exact (decode_of_opcBranch (opcodeOf_eq_of_mod hop)).trans (decodeBranch_error (not_mem_of_toNat_not_mem h))
  · obtain hop | hop := List.mem_pair.1 hop
    · exact ⟨_, decode_of_opcJal (opcodeOf_eq_of_mod hop)⟩
    · exact ⟨_, decode_of_opcJalr (opcodeOf_eq_of_mod hop)⟩

/-- Settles O21: in range the top two bits of the offset are its sign, and the standard layout puts one of them at the top
of the immediate and the other at the bottom. -/
theorem standardBranchWordOffset : Obligations.StandardBranchWordOffset := by
  intro off rs2 rs1 f3 heven w
  have hmid : (off.extractLsb' 5 6 ++ off.extractLsb' 1 4 : BitVec 10) = off.extractLsb' 1 10 :=
    append_extract (n := 6) (m := 4) off 1
  have himm : (immSOf w).toNat = (off.toNat / 2 ^ 12 % 2 ^ 1 * 2 ^ 10 + off.toNat / 2 ^ 1 % 2 ^ 10) * 2 ^ 1
      + off.toNat / 2 ^ 11 % 2 ^ 1 := by
    rw [immSOf_append, hmid]
    simp only [append_toNat, extract_toNat]
  have hlow : off.toNat % 2 = 0 := by simpa [BitVec.getLsbD] using heven
  have hlt : off.toNat < 2 ^ 13 := off.isLt
  rw [BitVec.toInt_eq_toNat_cond off, BitVec.toInt_eq_toNat_cond (immSOf w)]
  refine ⟨fun h0 h1 => ?_, fun h0 h1 => ?_⟩
  · obtain ⟨h12, h11⟩ : off.toNat / 2 ^ 12 = 0 ∧ off.toNat / 2 ^ 11 = 0 := by split_ifs at h0 h1 <;> omega
    have hval : (immSOf w).toNat = off.toNat := by
      rw [himm, h12, h11]
      omega
    split_ifs at h0 h1 ⊢ <;> omega
  · obtain ⟨h12, h11⟩ : off.toNat / 2 ^ 12 = 1 ∧ off.toNat / 2 ^ 11 = 3 := by split_ifs at h0 h1 <;> omega
    have hval : (immSOf w).toNat + 2 ^ 12 = off.toNat + 1 := by
      rw [himm, h12, h11]
      omega
    split_ifs at h0 h1 ⊢ <;> omega

end Sys2Proof.Machine
end

section
/-! PROOFS. The dispatch loop (40_dispatch.md): what the step answers in each of its cases, what it can answer off the
sentinel, and why the word that `withFetchWord` places is the next to run. -/

namespace Sys2Proof.Machine

/-! ### The cases of a step (40_dispatch.md R120)

With `step_of_fetches`, `step_refused_of_stored` and the two terminal statuses these are all the cases there are. -/

section Cases

variable {s : State}

theorem pcMisaligned_eq_false {pc : Word} (hal : pc.toNat % 4 = 0) : pcMisaligned pc = false :=
  Bool.eq_false_iff.2 fun h => (pcMisaligned_iff pc).1 h hal

theorem step_of_sentinel (hrun : s.status = .running) (hpc : s.pc = s.platform.stopSentinel) : step s = stop s := by
  simp [step, engineStep, hrun, hpc]

theorem step_off_sentinel (hrun : s.status = .running) (hne : s.pc ≠ s.platform.stopSentinel) :
    step s = fetchAndRun s := by
  simp [step, engineStep, hrun, hne]

theorem step_of_misaligned (hrun : s.status = .running) (hne : s.pc ≠ s.platform.stopSentinel)
    (hmis : s.pc.toNat % 4 ≠ 0) : step s = raise (.fetchMisaligned s.pc) s := by
  rw [step_off_sentinel hrun hne, fetchAndRun, if_pos ((pcMisaligned_iff s.pc).2 hmis)]

theorem step_of_unserved (hrun : s.status = .running) (hne : s.pc ≠ s.platform.stopSentinel)
    (hal : s.pc.toNat % 4 = 0) (hf : iFetch s.code s.pc.toNat = none) : step s = raise (.fetchFault s.pc) s := by
  simp [step_off_sentinel hrun hne, fetchAndRun, pcMisaligned_eq_false hal, hf]

theorem runWord_of_decode {w : IWord} {i : Instr} (h : decode w = .ok i) : runWord w s = exec i s := by
  simp [runWord, h]

theorem runWord_of_decode_error {w : IWord} {f : UnsupportedField} (h : decode w = .error f) :
    runWord w s = raise (.unsupportedInstruction f) s := by
  simp [runWord, h]

/-- A fetched word answers a next state by faulting or by running an instruction. -/
theorem runWord_next_cases {t : State} {w : IWord} (h : runWord w s = .next t) :
    (∃ f, t = { s with status := .faulted f }) ∨ ∃ i, exec i s = .next t := by
  cases hdec : decode w with
  | ok i => exact .inr ⟨i, runWord_of_decode hdec ▸ h⟩
  | error f =>
    rw [runWord_of_decode_error hdec] at h
    cases h
    exact .inl ⟨_, rfl⟩

/-- `step_cases` off the sentinel, where stopping is not among the cases: a failed fetch raises its fault or is refused, and
a word that is fetched is run. -/
theorem step_cases_off_sentinel {t : State} (hne : s.pc ≠ s.platform.stopSentinel) (h : step s = .next t) :
    (∃ f, t = { s with status := .faulted f }) ∨ ∃ i, exec i s = .next t := by
  obtain ⟨hrun, -⟩ := step_cases h
  by_cases hal : s.pc.toNat % 4 = 0
  case neg =>
    rw [step_of_misaligned hrun hne hal] at h
    cases h
    exact .inl ⟨_, rfl⟩
  cases hf : iFetch s.code s.pc.toNat with
  | none =>
    rw [step_of_unserved hrun hne hal hf] at h
    cases h
    exact .inl ⟨_, rfl⟩
  | some w =>
    by_cases hst : ∃ k, k < 4 ∧ s.pc.toNat + k ∈ s.stored
    · rw [step_refused_of_stored hrun hne hal hf hst] at h
      cases h
    · have hfetch : FetchesWord s w := ⟨hrun, hne, hal, hf, fun k hk hmem => hst ⟨k, hk, hmem⟩⟩
      exact runWord_next_cases (step_of_fetches hfetch ▸ h)

/-- No instruction makes a Running engine Stopped. -/
theorem exec_not_stopped {i : Instr} {t : State} (hrun : s.status = .running) (h : exec i s = .next t) :
    t.status ≠ .stopped := by
  obtain ⟨f, rfl⟩ | ⟨s', p, hw, rfl⟩ := exec_next_cases h
  · exact nofun
  · rw [retire_status, hw.sameSetup.1, hrun]
    exact nofun

end Cases

/-! ### The placed word (log 4) -/

section Placed

variable (s : State) (w : IWord)

theorem alignedPc_mod_four : (alignedPc s).toNat % 4 = 0 := by
  have hmask : (~~~3#64).toNat % 2 ^ 2 = 0 := by decide
  rw [alignedPc, BitVec.toNat_and, show 4 = 2 ^ 2 from rfl, Nat.and_mod_two_pow, hmask, Nat.and_zero]

theorem fetchSpot_mod_four : (fetchSpot s).toNat % 4 = 0 := by
  have hal := alignedPc_mod_four s
  unfold fetchSpot
  split
  · rw [BitVec.toNat_add]
    simp only [BitVec.toNat_ofNat]
    omega
  · exact hal

theorem fetchSpot_ne_sentinel : fetchSpot s ≠ s.platform.stopSentinel := by
  unfold fetchSpot
  split
  · next h =>
    rw [← h]
    bv_omega
  · next h => exact h

/-- What the host has installed at an address is fetched there. -/
theorem iFetch_putCode_wordBytes {c : CodeStore} (a : Nat) (hc : cellsRising c = true) :
    iFetch (putCode c a (wordBytes w)) a = some w := by
  have hbyte : ∀ k, k < 4 → codeByte (putCode c a (wordBytes w)) (a + k) = (wordBytes w)[k]? := by
    intro k hk
    have hlen : (wordBytes w).length = 4 := rfl
    rw [codeByte_putCode _ _ _ hc, if_pos (by omega), Nat.add_sub_cancel_left]
  have hjoin := (leJoin_four fun k => (wordBytes w).getD k 0#8).symm.trans (leJoin_wordBytes w)
  exact (iFetch_of_served (hbyte 0 (by decide)) (hbyte 1 (by decide)) (hbyte 2 (by decide)) (hbyte 3 (by decide))).trans
    (congrArg some hjoin)

theorem placeWord_pc : (placeWord s w).pc = fetchSpot s := rfl

/-- Of the addresses stored to, placing a word forgets its own four. -/
theorem mem_stored_placeWord {a : Nat} : a ∈ (placeWord s w).stored ↔
    a ∈ s.stored ∧ (a < (fetchSpot s).toNat ∨ (fetchSpot s).toNat + 4 ≤ a) := by
  simp [placeWord]

theorem fetchesWord_placeWord (hc : cellsRising s.code = true) : FetchesWord (placeWord s w) w := by
  refine ⟨rfl, fetchSpot_ne_sentinel s, fetchSpot_mod_four s, iFetch_putCode_wordBytes w _ hc, fun k hk hmem => ?_⟩
  obtain ⟨-, houtside⟩ := (mem_stored_placeWord s w).1 hmem
  rw [placeWord_pc] at houtside
  omega

theorem withFetchWord_toNat : s.withFetchWord 32 w.toNat = placeWord s w := by
  rw [State.withFetchWord, Nat.mod_eq_of_lt w.isLt, BitVec.ofNat_toNat, BitVec.setWidth_eq]

end Placed

/-! ### The statements -/

/-- Settles O7: off the sentinel a step faults or runs an instruction, and neither leads to Stopped. -/
theorem onlyTheSentinelStops : Obligations.OnlyTheSentinelStops := by
  intro s t h hstop
  obtain ⟨hrun, -⟩ := step_cases h
  by_cases hpc : s.pc = s.platform.stopSentinel
  · rw [step_of_sentinel hrun hpc] at h
    cases h
    exact ⟨hpc, rfl⟩
  · obtain ⟨f, rfl⟩ | ⟨i, he⟩ := step_cases_off_sentinel hpc h
    · cases hstop
    · exact absurd hstop (exec_not_stopped hrun he)

/-- Settles O11: the step runs the fetched word, and the word is the instruction it decodes to. -/
theorem stepRunsDecodedInstruction : Obligations.StepRunsDecodedInstruction := fun _ _ _ hfetch hdec =>
  (step_of_fetches hfetch).trans (runWord_of_decode hdec)

/-- Settles O15: the placed word meets the conditions of the fetch, so O11 applies. -/
theorem placedWordIsRun : Obligations.PlacedWordIsRun := by
  intro s w i hc hdec
  rw [withFetchWord_toNat]
  exact stepRunsDecodedInstruction _ w i (fetchesWord_placeWord s w hc) hdec

/-- Settles O6: the sentinel is tested first. -/
theorem stepAtSentinelStops : Obligations.StepAtSentinelStops := fun _ => step_of_sentinel

/-- Settles O8: alignment is tested before service. -/
theorem misalignedFetchFaults : Obligations.MisalignedFetchFaults := fun _ hrun hne hmis =>
  ⟨_, step_of_misaligned hrun hne hmis, rfl⟩

/-- Settles O9: an aligned `pc` that is not served has passed every test before service. -/
theorem unservedFetchFaults : Obligations.UnservedFetchFaults := fun _ hrun hne hal hf =>
  ⟨_, step_of_unserved hrun hne hal hf, rfl⟩

end Sys2Proof.Machine
end

section
/-! PROOFS. The R-type unit (41_r_type.md): what `completeIR` changes and leaves alone, said once for every instruction that
ends with it, and the value each operation gives as a number. -/

namespace Sys2Proof.Machine

/-! ### The effect of an instruction that ends with `completeIR` (41_r_type.md R140) -/

theorem sameRegsBut_retire_writeReg (s : State) (rd : RegIdx) (v p : Word) (c : Category) :
    SameRegsBut s ((s.writeReg rd v).retire c p) rd :=
  ⟨readReg_zero _, fun r hr => readReg_writeReg_ne s rd r v hr⟩

theorem sameSetup_retire_writeReg (s : State) (rd : RegIdx) (v p : Word) (c : Category) :
    SameSetup s ((s.writeReg rd v).retire c p) :=
  ⟨writeReg_status s rd v, writeReg_code s rd v, writeReg_platform s rd v⟩

/-- An instruction that ends with `completeIR` has the whole effect of a register-only one; what is left to show of it is
what its result is. -/
theorem computesIR_of_completeIR {i : Instr} {rd : RegIdx} {P : Word → Prop} {s : State} {v : Word}
    (h : exec i s = completeIR rd v s) (hv : P v) : ComputesIR i rd P s := by
  refine ⟨_, h, fun hrd => ?_, sameRegsBut_retire_writeReg .., rfl, ?_, fun a => ?_, ?_, sameSetup_retire_writeReg ..⟩
  · rwa [readReg_retire, readReg_writeReg_same s rd v hrd]
  · rw [retire_ctr, writeReg_ctr, Counters.count]
  · rw [retire_mem, writeReg_mem]
  · rw [retire_stored, writeReg_stored]

/-! ### The results as numbers -/

section Values

variable (a b : Word)

theorem sub_toNat_eq_emod : ((a - b).toNat : Int) = ((a.toNat : Int) - b.toNat) % 2 ^ 64 := by
  have hb := b.isLt
  rw [BitVec.toNat_sub]
  omega

/-- The unsigned value is the signed one modulo the width's power of two. -/
theorem toNat_eq_toInt_emod {w : Nat} (x : BitVec w) : (x.toNat : Int) = x.toInt % (2 ^ w : Nat) := by
  rw [BitVec.toInt_eq_toNat_bmod, Int.bmod_emod, ← Int.natCast_emod, Nat.mod_eq_of_lt x.isLt]

/-- The low half of the product does not depend on how the factors are read. -/
theorem mul_toNat_eq_toInt_emod {w : Nat} (x y : BitVec w) :
    ((x * y).toNat : Int) = x.toInt * y.toInt % (2 ^ w : Nat) := by
  rw [toNat_eq_toInt_emod, BitVec.toInt_mul, Int.bmod_emod]

theorem shiftLeft_toNat_eq_mul_pow (n : Nat) : (a <<< n).toNat = a.toNat * 2 ^ n % 2 ^ 64 := by
  rw [BitVec.toNat_shiftLeft, Nat.shiftLeft_eq]

theorem ushiftRight_toNat_eq_div_pow (n : Nat) : (a >>> n).toNat = a.toNat / 2 ^ n := by
  rw [BitVec.toNat_ushiftRight, Nat.shiftRight_eq_div_pow]

/-- The arithmetic right shift rounds down, at every width. -/
theorem sshiftRight_toInt_eq_fdiv {w : Nat} (x : BitVec w) (n : Nat) : (x.sshiftRight n).toInt = x.toInt.fdiv (2 ^ n) := by
  have hpow : (0 : Int) ≤ 2 ^ n := by positivity
  rw [BitVec.toInt_sshiftRight, Int.shiftRight_eq_div_pow, Int.fdiv_eq_ediv_of_nonneg _ hpow, Nat.cast_pow, Nat.cast_ofNat]

/-- Sign extension keeps the signed value (00_scope.md R14). -/
theorem sext64_toInt {k : Nat} (v : BitVec k) (hk : k ≤ 64) : (sext64 v).toInt = v.toInt :=
  BitVec.toInt_signExtend_of_le hk

/-- Reducing the operand to 32 bits before the shift does not change the result modulo 2^32. -/
theorem shiftLeft32_toInt :
    (shiftLeft32 a b).toInt = ((a.toNat : Int) * 2 ^ (b.toNat % 32)).bmod (2 ^ 32) := by
  rw [shiftLeft32, sext64_toInt _ (by decide), shiftAmount5_eq, BitVec.toInt_shiftLeft, Nat.shiftLeft_eq,
    BitVec.toNat_setWidth, Nat.cast_mul, Int.natCast_emod, Int.emod_mul_bmod, Nat.cast_pow, Nat.cast_ofNat]

theorem shiftRightArith32_toInt :
    (shiftRightArith32 a b).toInt = ((a.toNat : Int).bmod (2 ^ 32)).fdiv (2 ^ (b.toNat % 32)) := by
  rw [shiftRightArith32, sext64_toInt _ (by decide), shiftAmount5_eq, sshiftRight_toInt_eq_fdiv, BitVec.toInt_setWidth]

end Values

/-! ### The statements -/

/-- Settles O22: both forms end with `completeIR` and the sum. -/
theorem addIsSumModulo : Obligations.AddIsSumModulo := by
  refine ⟨decode_add, decode_addRw, fun rd rs1 rs2 s => ?_⟩
  have hsum := BitVec.toNat_add (s.readReg rs1) (s.readReg rs2)
  exact ⟨computesIR_of_completeIR rfl hsum, computesIR_of_completeIR rfl hsum⟩

/-- Settles O23: both forms end with `completeIR` and the difference. -/
theorem subIsDifferenceModulo : Obligations.SubIsDifferenceModulo := by
  refine ⟨decode_sub, decode_subRw, fun rd rs1 rs2 s => ?_⟩
  have hdiff := sub_toNat_eq_emod (s.readReg rs1) (s.readReg rs2)
  exact ⟨computesIR_of_completeIR rfl hdiff, computesIR_of_completeIR rfl hdiff⟩

/-- Settles O24: both forms end with `completeIR` and the product, of which both readings hold. -/
theorem mulIsLowHalfOfProduct : Obligations.MulIsLowHalfOfProduct := by
  refine ⟨decode_mul, decode_mulRw, fun rd rs1 rs2 s => ?_⟩
  have hunsigned := BitVec.toNat_mul (s.readReg rs1) (s.readReg rs2)
  have hsigned := mul_toNat_eq_toInt_emod (s.readReg rs1) (s.readReg rs2)
  exact ⟨computesIR_of_completeIR rfl ⟨hunsigned, hsigned⟩, computesIR_of_completeIR rfl ⟨hunsigned, hsigned⟩⟩

/-- Settles O25: both forms end with `completeIR` and the conjunction. -/
theorem andIsBitwise : Obligations.AndIsBitwise := by
  refine ⟨decode_and, decode_andRw, fun rd rs1 rs2 s => ?_⟩
  have hbits := fun k => BitVec.getLsbD_and (x := s.readReg rs1) (y := s.readReg rs2) (i := k)
  exact ⟨computesIR_of_completeIR rfl hbits, computesIR_of_completeIR rfl hbits⟩

/-- Settles O26: a left shift multiplies, by the amount `shiftAmount6` reads (R142). -/
theorem sllIsProductByPower : Obligations.SllIsProductByPower := by
  refine ⟨decode_sll, fun rd rs1 rs2 s => computesIR_of_completeIR rfl ?_⟩
  rw [shiftLeft_toNat_eq_mul_pow, shiftAmount6_eq]

/-- Settles O27: a logical right shift divides, by the amount `shiftAmount6` reads (R142), in both forms. -/
theorem srlIsUnsignedQuotient : Obligations.SrlIsUnsignedQuotient := by
  refine ⟨decode_srl, decode_srlRw, fun rd rs1 rs2 s => ?_⟩
  have hquot := ushiftRight_toNat_eq_div_pow (s.readReg rs1) (shiftAmount6 (s.readReg rs2))
  rw [shiftAmount6_eq] at hquot
  exact ⟨computesIR_of_completeIR rfl hquot, computesIR_of_completeIR rfl hquot⟩

/-- Settles O28: an arithmetic right shift divides rounding down, by the amount `shiftAmount6` reads (R142). -/
theorem sraIsSignedFloorQuotient : Obligations.SraIsSignedFloorQuotient := by
  refine ⟨decode_sra, fun rd rs1 rs2 s => computesIR_of_completeIR rfl ?_⟩
  rw [sshiftRight_toInt_eq_fdiv, shiftAmount6_eq]

/-- Settles O29: the result is `shiftLeft32`. -/
theorem sllwIsThirtyTwoBitSigned : Obligations.SllwIsThirtyTwoBitSigned :=
  ⟨decode_sllw, fun _ _ _ _ => computesIR_of_completeIR rfl (shiftLeft32_toInt _ _)⟩

/-- Settles O30: the result is `shiftRightArith32`. -/
theorem srawIsThirtyTwoBitSigned : Obligations.SrawIsThirtyTwoBitSigned :=
  ⟨decode_sraw, fun _ _ _ _ => computesIR_of_completeIR rfl (shiftRightArith32_toInt _ _)⟩

/-- Settles O20, by evaluating the decoder at each of the ten words. -/
theorem exampleWordsDecode : Obligations.ExampleWordsDecode := by
  unfold Obligations.ExampleWordsDecode
  decide

end Sys2Proof.Machine
end

section
/-! PROOFS. The I-arithmetic unit (42_i_arith.md): the sum of a word and a signed immediate as a number, and the two
statements. -/

namespace Sys2Proof.Machine

/-! ### The result as a number -/

/-- Adding a sign-extended immediate adds its signed value, modulo 2^64 (00_scope.md R14). -/
theorem add_sext64_toNat_eq_emod (a : Word) {k : Nat} (v : BitVec k) (hk : k ≤ 64) :
    ((a + sext64 v).toNat : Int) = ((a.toNat : Int) + v.toInt) % 2 ^ 64 := by
  have hext : ((sext64 v).toNat : Int) = v.toInt % 2 ^ 64 := by
    rw [toNat_eq_toInt_emod, sext64_toInt v hk, Nat.cast_pow, Nat.cast_ofNat]
  rw [BitVec.toNat_add, Int.natCast_emod, Nat.cast_add, hext, Nat.cast_pow, Nat.cast_ofNat, Int.add_emod_emod]

/-! ### The statements -/

/-- Settles O31: ADDI ends with `completeIR` and the sum with the sign-extended immediate. -/
theorem addiAddsSignedImmediate : Obligations.AddiAddsSignedImmediate :=
  ⟨decode_addi, fun _ _ imm s =>
    computesIR_of_completeIR rfl (add_sext64_toNat_eq_emod (s.readReg _) imm (by decide))⟩

/-- Settles O32: SRLI ends with `completeIR` and the logical shift by its own amount, which no register gives. -/
theorem srliIsUnsignedQuotient : Obligations.SrliIsUnsignedQuotient :=
  ⟨decode_srli, fun _ _ shamt s =>
    computesIR_of_completeIR rfl (ushiftRight_toNat_eq_div_pow (s.readReg _) shamt.toNat)⟩

end Sys2Proof.Machine
end

section
/-! PROOFS. The load unit (43_load.md): what `loadZeroExtended` changes, leaves alone and faults with, said once for the three
widths, and the value each width gives. -/

namespace Sys2Proof.Machine

/-! ### The effect of a load (43_load.md R180) -/

/-- An instruction that is a load of n bytes has the whole effect of one, completed and faulted; what is left to show of it is
which value its n bytes are. -/
theorem loadsFrom_of_loadZeroExtended {i : Instr} {rd rs1 : RegIdx} {imm : BitVec 12} {n : Nat} {v : Word} {s : State}
    (h : exec i s = loadZeroExtended n rd rs1 imm s) (hv : zext64 (leJoin n (byteAt s (effAddr s rs1 imm))) = v) :
    LoadsFrom i rd (effAddr s rs1 imm) n v s := by
  constructor
  · intro hvalid
    refine ⟨_, h.trans (loadZeroExtended_valid hvalid), fun hrd => ?_, sameRegsBut_retire_writeReg .., rfl, ?_, fun a => ?_,
      ?_, sameSetup_retire_writeReg ..⟩
    · rw [readReg_retire, readReg_writeReg_same s rd _ hrd, hv]
    · rw [retire_ctr, writeReg_ctr, Counters.count]
    · rw [retire_mem, writeReg_mem]
    · rw [retire_stored, writeReg_stored]
  · intro hinvalid
    exact ⟨_, h.trans (loadZeroExtended_invalid hinvalid), rfl⟩

/-! ### The values (20_memory.md R55, R56) -/

section Values

variable (f : Nat → Byte)

theorem leJoin_one : leJoin 1 f = f 0 := by
  rw [leJoin, leJoin, BitVec.zero_width_append]
  rfl

/-- Eight bytes joined: the byte of the lowest address is the lowest. -/
theorem leJoin_eight : leJoin 8 f = (f 7 ++ f 6 ++ f 5 ++ f 4 ++ f 3 ++ f 2 ++ f 1 ++ f 0 : BitVec 64) :=
  congrArg (fun b : Byte => (b ++ f 6 ++ f 5 ++ f 4 ++ f 3 ++ f 2 ++ f 1 ++ f 0 : BitVec 64))
    (leJoin_one fun k => f (k + 7))

theorem zext64_leJoin_one : zext64 (leJoin 1 f) = BitVec.ofNat 64 (f 0).toNat := by
  rw [leJoin_one, BitVec.ofNat_toNat, zext64]

/-- Zeros above the four bytes joined do not change their value as a number. -/
theorem zext64_leJoin_four : zext64 (leJoin 4 f) = (0#32 ++ f 3 ++ f 2 ++ f 1 ++ f 0 : BitVec 64) := by
  apply BitVec.eq_of_toNat_eq
  rw [leJoin_four, zext64, BitVec.toNat_setWidth_of_le (by decide)]
  simp only [append_toNat, BitVec.toNat_ofNat, Nat.zero_mod, Nat.zero_mul, Nat.zero_add]

/-- Eight bytes fill the register: there is nothing to extend. -/
theorem zext64_leJoin_eight :
    zext64 (leJoin 8 f) = (f 7 ++ f 6 ++ f 5 ++ f 4 ++ f 3 ++ f 2 ++ f 1 ++ f 0 : BitVec 64) := by
  rw [leJoin_eight, zext64, BitVec.setWidth_eq]

end Values

/-! ### The statements -/

/-- Settles O33: LB is the load of one byte. -/
theorem lbLoadsByteZeroExtended : Obligations.LbLoadsByteZeroExtended :=
  ⟨decode_lb, fun _ _ _ _ => loadsFrom_of_loadZeroExtended rfl (zext64_leJoin_one _)⟩

/-- Settles O34: LW is the load of four bytes, with the lowest address lowest. -/
theorem lwLoadsWordZeroExtended : Obligations.LwLoadsWordZeroExtended :=
  ⟨decode_lw, fun _ _ _ _ => loadsFrom_of_loadZeroExtended rfl (zext64_leJoin_four _)⟩

/-- Settles O35: LD is the load of eight bytes, with the lowest address lowest. -/
theorem ldLoadsDoubleword : Obligations.LdLoadsDoubleword :=
  ⟨decode_ld, fun _ _ _ _ => loadsFrom_of_loadZeroExtended rfl (zext64_leJoin_eight _)⟩

end Sys2Proof.Machine
end

section
/-! PROOFS. The store unit (44_store.md): what `storeLow` changes, leaves alone and faults with, said once for the three widths,
and the three statements. -/

namespace Sys2Proof.Machine

/-- Byte k of the n bytes just written is byte k of the value. -/
theorem byteAt_wroteBytes {s : State} {n k : Nat} (addr : Word) (v : BitVec (8 * n)) (hm : Memory.wf s.mem = true)
    (hk : k < n) : byteAt (wroteBytes s addr n v) addr k = leByte v k := by
  rw [byteAt, readByte_wroteBytes addr n v _ hm, if_pos (by omega), Nat.add_sub_cancel_left]

/-- An instruction that is a store of n bytes has the whole effect of one (44_store.md R190), completed and faulted. Of the
invariant it needs the canonical form of data memory alone. -/
theorem storesTo_of_storeLow {i : Instr} {rs2 rs1 : RegIdx} {imm : BitVec 12} {n : Nat} {s : State}
    (h : exec i s = storeLow n rs2 rs1 imm s) (hm : Memory.wf s.mem = true) :
    StoresTo i (effAddr s rs1 imm) n (s.readReg rs2) s := by
  constructor
  · intro hvalid
    refine ⟨_, h.trans (storeLow_valid hvalid), fun k hk => ?_, sameMemoryOutside_wroteBytes _ _ hm,
      fun _ => rfl, rfl, rfl, fun _ => mem_noteAddrs, ⟨rfl, rfl, rfl⟩⟩
    exact (byteAt_wroteBytes _ _ hm hk).trans (leByte_setWidth _ hk)
  · intro hinvalid
    exact ⟨_, h.trans (storeLow_invalid hinvalid), rfl⟩

/-! ### The statements -/

/-- Settles O36: SB is the store of one byte. -/
theorem sbStoresLowByte : Obligations.SbStoresLowByte :=
  ⟨decode_sb, fun _ _ _ _ hinv => storesTo_of_storeLow rfl hinv.mem_wf⟩

/-- Settles O37: SW is the store of four bytes. -/
theorem swStoresLowWord : Obligations.SwStoresLowWord :=
  ⟨decode_sw, fun _ _ _ _ hinv => storesTo_of_storeLow rfl hinv.mem_wf⟩

/-- Settles O38: SD is the store of eight bytes. -/
theorem sdStoresDoubleword : Obligations.SdStoresDoubleword :=
  ⟨decode_sd, fun _ _ _ _ hinv => storesTo_of_storeLow rfl hinv.mem_wf⟩

end Sys2Proof.Machine
end

section
/-! PROOFS. The branch unit (45_branch.md): what `branchIf` changes and leaves alone, said once for the four conditions, what
the step after a bad target does, and the four statements. -/

namespace Sys2Proof.Machine

/-- Sign extension goes through the signed value (00_scope.md R14). -/
theorem pcRelative_eq_add_ofInt {k : Nat} (s : State) (off : BitVec k) :
    pcRelative s off = s.pc + BitVec.ofInt 64 off.toInt := rfl

/-- Every state has the two fetch faults of O8 and O9 in front of it where its `pc` is a bad target (R200). -/
theorem badTargetFaultsNext (t : State) : BadTargetFaultsNext t := fun hrun hne =>
  ⟨misalignedFetchFaults t hrun hne, unservedFetchFaults t hrun hne⟩

/-! ### The effect of a branch (45_branch.md R200) -/

theorem branchIf_taken (off : BitVec 12) (s : State) :
    branchIf true off s = .next (s.retire .branchTaken (pcRelative s off)) := rfl

theorem branchIf_not_taken (off : BitVec 12) (s : State) :
    branchIf false off s = .next (s.retire .branchNotTaken (pcPlus4 s)) := rfl

/-- An instruction that ends with `branchIf` has the whole effect of a branch; what is left to show of it is which condition
its test decides. -/
theorem branchesOn_of_branchIf {i : Instr} {taken : Bool} {c : Prop} {off : BitVec 12} {s : State}
    (h : exec i s = branchIf taken off s) (hc : taken = true ↔ c) : BranchesOn i c off s := by
  cases taken with
  | true =>
    have hcond : c := hc.1 rfl
    exact ⟨_, h.trans (branchIf_taken off s), fun _ => rfl, fun _ => rfl, rfl, ⟨rfl, rfl, rfl⟩,
      fun _ => ⟨pcRelative_eq_add_ofInt s off, rfl⟩, fun hn => absurd hcond hn, badTargetFaultsNext _⟩
  | false =>
    have hcond : ¬ c := fun hn => Bool.false_ne_true (hc.2 hn)
    exact ⟨_, h.trans (branchIf_not_taken off s), fun _ => rfl, fun _ => rfl, rfl, ⟨rfl, rfl, rfl⟩,
      fun hn => absurd hn hcond, fun _ => ⟨rfl, rfl⟩, badTargetFaultsNext _⟩

/-! ### The conditions (45_branch.md R201 to R204) -/

section Conditions

variable {a b : Word}

theorem condEq_iff : condEq a b = true ↔ a = b := decide_eq_true_iff

theorem condNe_iff : condNe a b = true ↔ a ≠ b := decide_eq_true_iff

theorem condLt_iff : condLt a b = true ↔ a.toInt < b.toInt := decide_eq_true_iff

theorem condGe_iff : condGe a b = true ↔ b.toInt ≤ a.toInt := decide_eq_true_iff

end Conditions

/-! ### The statements -/

/-- Settles O40: BEQ is the branch on `condEq`. -/
theorem beqBranchesOnEqual : Obligations.BeqBranchesOnEqual :=
  ⟨decode_beq, fun _ _ _ _ => branchesOn_of_branchIf rfl condEq_iff⟩

/-- Settles O41: BNE is the branch on `condNe`. -/
theorem bneBranchesOnUnequal : Obligations.BneBranchesOnUnequal :=
  ⟨decode_bne, fun _ _ _ _ => branchesOn_of_branchIf rfl condNe_iff⟩

/-- Settles O42: BLT is the branch on `condLt`, which compares the integers the registers denote. -/
theorem bltBranchesOnSignedLess : Obligations.BltBranchesOnSignedLess :=
  ⟨decode_blt, fun _ _ _ _ => branchesOn_of_branchIf rfl condLt_iff⟩

/-- Settles O43: BGE is the branch on `condGe`, which compares the integers the registers denote. -/
theorem bgeBranchesOnSignedGreaterEqual : Obligations.BgeBranchesOnSignedGreaterEqual :=
  ⟨decode_bge, fun _ _ _ _ => branchesOn_of_branchIf rfl condGe_iff⟩

end Sys2Proof.Machine
end

section
/-! PROOFS. The J-type unit (46_jal.md): the effect of JAL, and the statement. -/

namespace Sys2Proof.Machine

/-- JAL answers the link written and one jump retired, from every state (R210). -/
theorem exec_jal (rd : RegIdx) (off : BitVec 21) (s : State) :
    exec (.jal rd off) s = .next ((s.writeReg rd (pcPlus4 s)).retire .jump (pcRelative s off)) := rfl

/-- Settles O44: the effect is a register write and a retired jump, so the rules of the two give what changes and what stays. -/
theorem jalLinksAndJumps : Obligations.JalLinksAndJumps := by
  refine ⟨decode_jal, fun rd off s => ⟨_, exec_jal rd off s, fun hrd => ?_, sameRegsBut_retire_writeReg ..,
    pcRelative_eq_add_ofInt s off, ?_, fun a => ?_, ?_, sameSetup_retire_writeReg .., badTargetFaultsNext _⟩⟩
  · rw [readReg_retire, readReg_writeReg_same s rd _ hrd, pcPlus4]
  · rw [retire_ctr, writeReg_ctr, Counters.count]
  · rw [retire_mem, writeReg_mem]
  · rw [retire_stored, writeReg_stored]

end Sys2Proof.Machine
end

section
/-! PROOFS. The JALR unit (47_jalr.md): the effect of JALR as one register write and a retired jump, the effect of RET, and the
two statements. -/

namespace Sys2Proof.Machine

/-! ### The effect of JALR (47_jalr.md R215) -/

/-- Writing back what a register reads changes nothing. -/
theorem writeReg_readReg (s : State) (r : RegIdx) : s.writeReg r (s.readReg r) = s := by
  unfold State.writeReg State.readReg
  split
  · rfl
  · rw [Fin.getElem_fin, Vector.set_getElem_self]

/-- JALR without a link writes back what `x[1]` holds, so both its forms are one write to `x[1]` and one jump retired; the
target is read from the state before the write (D13). -/
theorem exec_jalr (rd rs1 : RegIdx) (imm : BitVec 12) (s : State) :
    exec (.jalr rd rs1 imm) s = .next
      ((s.writeReg regRA (if rd = 0 then s.readReg regRA else pcPlus4 s)).retire .jump (effAddr s rs1 imm)) := by
  by_cases hrd : rd = 0
  · rw [if_pos hrd, writeReg_readReg, exec, execJalr, if_pos hrd]
  · rw [if_neg hrd, exec, execJalr, if_neg hrd]

/-- Sign extension goes through the signed value (00_scope.md R14). -/
theorem effAddr_eq_add_ofInt (s : State) (rs1 : RegIdx) (imm : BitVec 12) :
    effAddr s rs1 imm = s.readReg rs1 + BitVec.ofInt 64 imm.toInt := rfl

/-! ### RET (47_jalr.md R216) -/

theorem decode_ret : decode 0x00008067#32 = .ok (.jalr 0 regRA 0) := decode_jalr _ (by decide)

/-- RET jumps to what `x[1]` holds and writes no register. -/
theorem exec_ret (s : State) : exec (.jalr 0 regRA 0) s = .next (s.retire .jump (s.readReg regRA)) := by
  have htarget : effAddr s regRA 0 = s.readReg regRA := BitVec.add_zero _
  rw [exec_jalr, if_pos rfl, writeReg_readReg, htarget]

/-! ### The statements -/

/-- Settles O45: the effect is a write to `x[1]` and a retired jump, so the rules of the two give what changes and what
stays. -/
theorem jalrLinksIntoRegisterOne : Obligations.JalrLinksIntoRegisterOne := by
  refine ⟨decode_jalr, fun rd rs1 imm s => ⟨_, exec_jalr rd rs1 imm s, ?_, sameRegsBut_retire_writeReg ..,
    effAddr_eq_add_ofInt s rs1 imm, ?_, fun a => ?_, ?_, sameSetup_retire_writeReg .., badTargetFaultsNext _⟩⟩
  · exact readReg_writeReg_same s regRA _ (by decide)
  · rw [retire_ctr, writeReg_ctr, Counters.count]
  · rw [retire_mem, writeReg_mem]
  · rw [retire_stored, writeReg_stored]

/-- Settles O46: the step runs RET, which leaves `pc` at the sentinel of a Running engine, and there the next step stops. -/
theorem returnThroughSentinelStops : Obligations.ReturnThroughSentinelStops := by
  intro s hfetch hra
  have hret : step s = .next (s.retire .jump (s.readReg regRA)) :=
    (stepRunsDecodedInstruction _ _ _ hfetch decode_ret).trans (exec_ret s)
  obtain ⟨hrun, -⟩ := hfetch
  exact ⟨_, hret, hrun, rfl, rfl, fun _ => rfl, step_of_sentinel hrun hra⟩

end Sys2Proof.Machine
end

section
/-! PROOFS. Faults (60_exceptions.md): when an instruction raises one, and that every instruction, and every step but one
refused fetch, answers a next state. -/

namespace Sys2Proof.Machine

/-! ### What answers a next state (60_exceptions.md R235, R227) -/

/-- Both ends of an instruction, the fault and the completion, are next states. -/
theorem exec_answers_next (i : Instr) (s : State) : ∃ t, exec i s = .next t := by
  obtain ⟨_, _, _, -, -, he⟩ | ⟨-, _, _, he, -⟩ := exec_cases i s
  · exact ⟨_, he⟩
  · exact ⟨_, he⟩

theorem runWord_answers_next (w : IWord) (s : State) : ∃ t, runWord w s = .next t := by
  cases hdec : decode w with
  | ok i => rw [runWord_of_decode hdec]; exact exec_answers_next i s
  | error f => exact ⟨_, runWord_of_decode_error hdec⟩

/-! ### The statements -/

/-- Settles O51: of the two ends of an instruction, an invalid access raises its own MemoryFault, and the other leaves the
engine Running. -/
theorem instructionFaultsOnlyOnInvalidAccess : Obligations.InstructionFaultsOnlyOnInvalidAccess := by
  intro i s f hrun
  obtain ⟨kind, addr, n, hacc, hbad, he⟩ | ⟨hvalid, s', p, he, hw⟩ := exec_cases i s
  · constructor
    · rintro ⟨t, ht, hfault⟩
      rw [he] at ht
      cases ht
      cases hfault
      exact ⟨kind, addr, n, hacc, rfl, hbad⟩
    · rintro ⟨kind', addr', n', hacc', rfl, -⟩
      rw [hacc] at hacc'
      cases hacc'
      exact ⟨_, he, rfl⟩
  · constructor
    · rintro ⟨t, ht, hfault⟩
      rw [he] at ht
      cases ht
      obtain ⟨hstatus, -⟩ := hw.sameSetup
      exact absurd hfault (not_faulted_of_running (hstatus.trans hrun) f)
    · rintro ⟨kind, addr, n, hacc, rfl, hbad⟩
      exact absurd (hvalid kind addr n hacc) hbad

/-- Settles O52: the cases of a Running step in the order of R120; only the stored-to word answers no state. -/
theorem everyInstructionAnswersNextState : Obligations.EveryInstructionAnswersNextState := by
  refine ⟨exec_answers_next, fun s hrun => ?_⟩
  by_cases hpc : s.pc = s.platform.stopSentinel
  · exact .inl ⟨_, step_of_sentinel hrun hpc⟩
  by_cases hal : s.pc.toNat % 4 = 0
  case neg => exact .inl ⟨_, step_of_misaligned hrun hpc hal⟩
  cases hf : iFetch s.code s.pc.toNat with
  | none => exact .inl ⟨_, step_of_unserved hrun hpc hal hf⟩
  | some w =>
    by_cases hst : ∃ k, k < 4 ∧ s.pc.toNat + k ∈ s.stored
    · exact .inr ⟨step_refused_of_stored hrun hpc hal hf hst, hst⟩
    · have hfetch : FetchesWord s w := ⟨hrun, hpc, hal, hf, fun k hk hmem => hst ⟨k, hk, hmem⟩⟩
      rw [step_of_fetches hfetch]
      exact .inl (runWord_answers_next w s)

/-- Settles O10: the fetched word is run, and a word of no row is run by raising the fault. -/
theorem unsupportedWordFaults : Obligations.UnsupportedWordFaults := fun _ _ _ hfetch hdec =>
  ⟨_, (step_of_fetches hfetch).trans (runWord_of_decode_error hdec), rfl⟩

end Sys2Proof.Machine
end

section
/-! PROOFS. Reset (70_reset_and_hazards.md): the registers and the memory that `init` leaves, what loading the image lists,
and the invariant of the state a run begins from. -/

namespace Sys2Proof.Machine

/-! ### The registers after `init` (70_reset_and_hazards.md R261) -/

theorem resetRegs_getElem (p : Platform) (a0 a1 a2 a3 : Word) (r : RegIdx) :
    (resetRegs p a0 a1 a2 a3)[r] =
      if r = 2 then p.stackBase + BitVec.ofNat 64 p.stackSize else if r = 1 then p.stopSentinel
      else if r = 13 then a3 else if r = 12 then a2 else if r = 11 then a1 else if r = 10 then a0 else 0 := by
  simp only [resetRegs, regSP, regRA, regA0, Fin.getElem_fin, Vector.getElem_set, Vector.getElem_replicate, Fin.ext_iff,
    eq_comm (b := r.val)]
  rfl

/-- `x[0]` is no seed, so reading it as an instruction does reads the 0 that stands there. -/
theorem readReg_hostInit (s : State) (target a0 a1 a2 a3 : Word) (r : RegIdx) :
    (s.hostInit target a0 a1 a2 a3).readReg r = (resetRegs s.platform a0 a1 a2 a3)[r] := by
  by_cases hr : r = 0
  · subst hr
    rfl
  · exact if_neg hr

/-! ### The cells that loading and `init` list (70_reset_and_hazards.md R263, R265) -/

theorem loadImage_wf {m : Memory} (rs : List Region) (hm : Memory.wf m = true) : Memory.wf (loadImage m rs) = true := by
  induction rs generalizing m with
  | nil => exact hm
  | cons r rs ih => exact ih (loadRegion_wf r hm)

theorem mem_loadImage {m : Memory} {rs : List Region} {c : Host.Cell} (hlen : ∀ r ∈ rs, r.init.length ≤ r.size)
    (hc : c ∈ loadImage m rs) : (∃ r ∈ rs, inSpan r.base r.size c.1 = true) ∨ c ∈ m := by
  induction rs generalizing m with
  | nil => exact .inr hc
  | cons r rs ih =>
    rw [List.forall_mem_cons] at hlen
    obtain ⟨q, hq, hin⟩ | hc := ih hlen.2 hc
    · exact .inl ⟨q, List.mem_cons_of_mem r hq, hin⟩
    · refine (mem_writeBytes hc).imp_left fun hspan => ⟨r, List.mem_cons_self, inSpan_iff.2 ?_⟩
      have hle := hlen.1
      omega

/-- On a well-formed platform the loaded image lists bytes of its own regions only. -/
theorem validAddr_of_mem_loadImage {p : Platform} (hp : p.wellFormed = true) {c : Host.Cell}
    (hc : c ∈ loadImage [] p.image) : validAddr p c.1 = true := by
  obtain ⟨hlen, -⟩ := image_of_wellFormed hp
  obtain hregion | hnil := mem_loadImage hlen hc
  · have himage : inImage p c.1 = true := List.any_eq_true.2 hregion
    rw [validAddr, himage, Bool.or_true]
  · cases hnil

/-! ### The invariant after `init` -/

/-- `init` writes everything the invariant speaks of but three things: the form of memory, where its cells lie, and the
form of the instruction source. -/
theorem hostInit_inv {s : State} (hwf : Memory.wf s.mem = true) (hvalid : ∀ c ∈ s.mem, validAddr s.platform c.1 = true)
    (hcode : cellsRising s.code = true) (target a0 a1 a2 a3 : Word) : (s.hostInit target a0 a1 a2 a3).Inv where
  mem_wf := filter_wf _ hwf
  mem_valid := fun c hc => hvalid c (List.mem_of_mem_filter hc)
  stored_rising := rfl
  stored_valid := nofun
  code_rising := hcode
  x0_zero := resetRegs_getElem s.platform a0 a1 a2 a3 0
  counters := fun _ => rfl

/-! ### The statements -/

/-- Settles O1: each register reads its seed or 0, and the stack is the part of memory that is cleared. -/
theorem hostInitGivesResetState : Obligations.HostInitGivesResetState := by
  intro s target a0 a1 a2 a3 t
  have hreg : ∀ r, t.readReg r = _ := fun r =>
    (readReg_hostInit s target a0 a1 a2 a3 r).trans (resetRegs_getElem s.platform a0 a1 a2 a3 r)
  have hmem : ∀ a, readByte t.mem a = if inStack s.platform a = true then 0 else readByte s.mem a :=
    readByte_clearStack s.platform s.mem
  refine ⟨rfl, rfl, rfl, rfl, rfl, rfl, hreg 1, ?_, hreg 10, hreg 11, hreg 12, hreg 13, ?_, fun a ha => ?_, fun a ha => ?_⟩
  · have hsp : t.readReg 2 = s.platform.stackBase + BitVec.ofNat 64 s.platform.stackSize := hreg 2
    rw [hsp, BitVec.toNat_add, BitVec.toNat_ofNat, Nat.add_mod_mod]
  · intro r h1 h2 h10 h11 h12 h13
    rw [hreg, if_neg h2, if_neg h1, if_neg h13, if_neg h12, if_neg h11, if_neg h10]
  · rw [hmem, if_pos ha]
  · rw [hmem, ha]
    rfl

/-- Settles O56: what `init` needs is in the invariant, and loading an image makes it from nothing. -/
theorem initHasInvariant : Obligations.InitHasInvariant :=
  ⟨fun _ target a0 a1 a2 a3 hinv =>
      hostInit_inv hinv.mem_wf hinv.mem_valid hinv.code_rising target a0 a1 a2 a3,
    fun _ p _ target a0 a1 a2 a3 hp hcode =>
      hostInit_inv (loadImage_wf p.image Memory.wf_nil) (fun _ => validAddr_of_mem_loadImage hp) hcode target a0 a1 a2 a3⟩

/-- Settles O2: load and `init` write every field, so the state before does not matter and both sides compute. -/
theorem resetIsHostInitOfExamplePlatform : Obligations.ResetIsHostInitOfExamplePlatform := fun _ => rfl

/-- Settles O55: by O2 the state is one that O56 speaks of. -/
theorem resetHasInvariant : Obligations.ResetHasInvariant := by
  obtain ⟨-, hloaded⟩ := initHasInvariant
  have hplatform : Config.resetPlatform.wellFormed = true := by decide
  have hinit := hloaded State.reset Config.resetPlatform [] 0x1000#64 0 0 0 0 hplatform rfl
  rwa [resetIsHostInitOfExamplePlatform State.reset] at hinit

end Sys2Proof.Machine
end
